-- ==== Sys2Proof/Word.lean ====
section
/-! DEFINITION. The one word type of the hardware: a byte (00_scope.md R4, R6). -/

namespace Sys2Proof

/-- A byte: a register, a memory cell, an operand, an opcode, an 8-bit address (R4, R10, R30). -/
abbrev Byte := BitVec 8

end Sys2Proof
end

