-- ==== Sys2Proof/Config.lean ====
section
/-! DEFINITION. The parameters of 00_scope.md R5 and the fixed numbers of R4. -/

namespace Sys2Proof

/-- The parameter `CALL_LINK` (R5, D6): which reading of the CALL and RET text is in force. `stack` is the spec's own
choice and default (R131, R132); `viaR7` is the literal reading (R137, R138). -/
inductive CallLink where
  | stack
  | viaR7
  deriving DecidableEq, Repr

/-- The value of `CALL_LINK` in `State.reset`: STACK, "the spec's choice and the default" (D6).
DESIGN CHOICE, unsafe (log 5): the parameter stands in State, so that a claim can be made for both values. -/
def Config.callLinkAtReset : CallLink := .stack

/-- What a memory cell that the state does not list reads as. DESIGN CHOICE, unsafe (log 1): the spec takes every cell from
the parameter `IMAGE` (R5, R171, D11) and gives no value of its own; the model's empty image is 0x00 everywhere. -/
def Config.unlistedByte : Byte := 0x00#8

/-- The reset value of `x[7]` (R4, R22). -/
def Config.stackPointerAtReset : Byte := 0xF4#8

/-- The reset value of `x[0]` to `x[6]` (R5, R22). The spec's own decision D9 (DESIGN CHOICE, unsafe, log 2). -/
def Config.registerAtReset : Byte := 0x00#8

/-- The reset value of `FL.E` (R5, R22). The spec's own decision D10 (DESIGN CHOICE, unsafe, log 3). -/
def Config.equalFlagAtReset : Bool := false

/-- The highest address of the memory (R4, R30). -/
def Config.lastAddress : Nat := 255

end Sys2Proof
end

