-- ==== Sys2Proof/Syntax.lean ====
section
/-! DEFINITION. The instructions: one constructor for each of the 22 rows of 30_encoding.md R56. -/

namespace Sys2Proof

/-- A register index 0 to 7 (R10, R55). An operand byte above 7 never becomes one: the decoder raises
`InvalidRegisterIndex` (R75, D5). -/
abbrev Reg := Fin 8

/-- The 22 instructions of R56 in the table's order, with the operands of R54: `a` and `b` are register indices, `imm` is
the operand byte itself. -/
inductive Instr where
  /-- HLT (R115). -/
  | hlt
  /-- RET (R132; R138 under `VIA_R7`). -/
  | ret
  /-- PUSH a (R112). -/
  | push (a : Reg)
  /-- POP a (R113). -/
  | pop (a : Reg)
  /-- PRN a (R114). -/
  | prn (a : Reg)
  /-- CALL a (R131; R137 under `VIA_R7`). -/
  | call (a : Reg)
  /-- JMP a (R133). -/
  | jmp (a : Reg)
  /-- JEQ a (R134). -/
  | jeq (a : Reg)
  /-- JNE a (R135). -/
  | jne (a : Reg)
  /-- NOT a (R98). -/
  | not (a : Reg)
  /-- LDI a, imm (R111). -/
  | ldi (a : Reg) (imm : Byte)
  /-- ST a, b (R110): a register copy; it touches no memory. -/
  | st (a b : Reg)
  /-- ADD a, b (R92). -/
  | add (a b : Reg)
  /-- ADDI a, imm (R93). -/
  | addi (a : Reg) (imm : Byte)
  /-- MUL a, b (R94). -/
  | mul (a b : Reg)
  /-- MOD a, b (R95). -/
  | mod (a b : Reg)
  /-- CMP a, b (R101). -/
  | cmp (a b : Reg)
  /-- AND a, b (R96). -/
  | and (a b : Reg)
  /-- OR a, b (R97). -/
  | or (a b : Reg)
  /-- XOR a, b (R136); its scratch register `a + 2` is implied. -/
  | xor (a b : Reg)
  /-- SHL a, b (R99). -/
  | shl (a b : Reg)
  /-- SHR a, b (R100). -/
  | shr (a b : Reg)
  deriving DecidableEq, Repr

end Sys2Proof
end

