-- ==== Sys2Proof/Machine/State.lean ====
section
/-! DEFINITION. Everything the spec gives the machine as state (10_state.md R10 to R22), as plain data, and its reset. -/

namespace Sys2Proof.Machine

/-- The causes of a fatal error, by the names of 60_exceptions.md R150. -/
inductive Cause where
  /-- The opcode byte is not one of the 22; `info` is the byte (R151). -/
  | unsupportedOpcode
  /-- In the source's list, raised by nothing here (R81, R152; log 12). -/
  | unsupportedAluOperation
  /-- MOD by a register that holds 0; `info` is the register index `b` (R153). -/
  | divideByZero
  /-- A cell above 255 is needed; `info` is the address (R154). -/
  | addressOutOfRange
  /-- A register index above 7; `info` is the value (R156). -/
  | invalidRegisterIndex
  deriving DecidableEq, Repr

/-- The run status (R17): `faulted` is the third, terminal value the spec adds for a fatal error (R155, D13). -/
inductive Status where
  | running
  | halted
  | faulted (cause : Cause) (info : Nat)
  deriving DecidableEq, Repr

/-- The memory of R30: address and byte, addresses strictly rising, no entry that reads as an unlisted cell does
(`Memory.wf` in Ops.lean). -/
abbrev Memory := List Host.Cell

/-- Why a step does not exist. The spec's fatal errors are NOT here: `raise` gives a next state whose `status` is `faulted`
(R155). Only a step from a terminal status has no next state (R70, R80, U18). -/
inductive Fault where
  /-- Raised by `step` alone, when `status` is Halted: "Terminal: no step exists" (R17). Safe. -/
  | stuckHalted
  /-- Raised by `step` alone, when `status` is Faulted: "Terminal: no step exists" (R17). Safe. -/
  | stuckFaulted (cause : Cause) (info : Nat)
  deriving DecidableEq, Repr

/-- Why an instruction has no meaning. -/
inductive Refusal where
  /-- Raised by an arm of `exec` whose instruction has no meaning yet (none is left). Safe. -/
  | notModelled (mnemonic : String)
  deriving DecidableEq, Repr

/-- The machine's state (the table of 10_state.md section 1). -/
structure State where
  /-- The eight general registers `x[0]` to `x[7]`; `x[7]` is the stack pointer (R10, R11). -/
  regs : Vector Byte 8
  /-- The program counter, 0 to 256 (R14). -/
  pc : Nat
  /-- The equal flag `FL.E` (R16). -/
  flE : Bool
  /-- The run status (R17). -/
  status : Status
  /-- The address latch; it has no value before the first access (R18, R22). -/
  mar : Option Byte
  /-- The data latch; it has no value before the first access (R18, R22). -/
  mdr : Option Byte
  /-- The 256 memory cells (R30). -/
  mem : Memory
  /-- The output stream, oldest byte first (R20). -/
  out : List Byte
  /-- The parameter `CALL_LINK` (R5), which no step changes; the model's own field (log 5). -/
  callLink : CallLink
  deriving DecidableEq, Repr

/-- The machine right after reset (R22), with nothing in memory. `State.boot` (Boot.lean) is the same over any `IMAGE`. -/
def State.reset : State where
  regs := (Vector.replicate 8 Config.registerAtReset).set 7 Config.stackPointerAtReset
  pc := 0
  flE := Config.equalFlagAtReset
  status := .running
  mar := none
  mdr := none
  mem := []
  out := []
  callLink := Config.callLinkAtReset

end Sys2Proof.Machine
end

