-- ==== Sys2Proof/Machine/Ops.lean ====
section
/-! DEFINITION. The named operations over memory, registers, latches, output and status, and taking a fault
(20_memory.md, 10_state.md, 60_exceptions.md R155). There is no return from a fault (R158), so none stands beside it. -/

namespace Sys2Proof.Machine

/-- The canonical form from address `lo` up: rising addresses, all in 0..255, no entry equal to what an unlisted cell reads
as. -/
def memWfFrom (lo : Nat) : Memory → Bool
  | [] => true
  | (k, v) :: rest =>
    decide (lo ≤ k) && decide (k ≤ Config.lastAddress) && (v != Config.unlistedByte) && memWfFrom (k + 1) rest

/-- The memory is in canonical form, so that equal memories are equal data. -/
abbrev Memory.wf (m : Memory) : Bool := memWfFrom 0 m

/-- The byte of one cell. -/
def Memory.read (m : Memory) (addr : Nat) : Byte :=
  match m with
  | [] => Config.unlistedByte
  | (k, v) :: rest => if k = addr then v else Memory.read rest addr

/-- One entry in front of a memory, unless it reads as an unlisted cell does. -/
def consCell (addr : Nat) (v : Byte) (m : Memory) : Memory :=
  if v = Config.unlistedByte then m else (addr, v) :: m

/-- The memory with one cell replaced, in canonical form again. -/
def Memory.write (m : Memory) (addr : Nat) (v : Byte) : Memory :=
  match m with
  | [] => consCell addr v []
  | (k, u) :: rest =>
    if addr < k then consCell addr v ((k, u) :: rest)
    else if addr = k then consCell addr v rest
    else (k, u) :: Memory.write rest addr v

/-- Bytes stored at ascending addresses; what would lie above address 255 is dropped (no such cell exists, R30). The
loader's move, not the core's: it leaves the latches alone (R43, R173). -/
def Memory.storeBytes (m : Memory) (addr : Nat) (bs : List Byte) : Memory :=
  match bs with
  | [] => m
  | b :: rest =>
    Memory.storeBytes (if addr ≤ Config.lastAddress then m.write addr b else m) (addr + 1) rest

/-- The debug view of one cell: it moves no latch (R21). -/
def State.peek (s : State) (addr : Byte) : Byte := s.mem.read addr.toNat

/-- `x[i]` (R6, R10): no register is hard-wired. -/
def State.readReg (s : State) (r : Reg) : Byte := s.regs[r]

/-- `x[i] <- v` (R6, R10). -/
def State.writeReg (s : State) (r : Reg) (v : Byte) : State := { s with regs := s.regs.set r v }

/-- The stack pointer is register 7 itself (R11). -/
def spReg : Reg := 7

/-- The stack pointer's value. -/
def State.sp (s : State) : Byte := s.readReg spReg

/-- `pc <- t` (R6). -/
def State.setPc (s : State) (t : Nat) : State := { s with pc := t }

/-- The sequential advance `pc <- pc + w`: it does not wrap; 256 is the "ran off the top" value (R14, R77, D3). -/
def State.advance (s : State) (w : Nat) : State := s.setPc (s.pc + w)

/-- `FL.E <- v` (R16). -/
def State.setFlE (s : State) (v : Bool) : State := { s with flE := v }

/-- `status <- v` (R17). -/
def State.setStatus (s : State) (v : Status) : State := { s with status := v }

/-- Both latches record an access (R18). -/
def State.latch (s : State) (addr v : Byte) : State := { s with mar := some addr, mdr := some v }

/-- `MemRead(addr, 1)` (R32): the byte, and the state with both latches set. -/
def State.memRead (s : State) (addr : Byte) : Byte × State :=
  (s.peek addr, s.latch addr (s.peek addr))

/-- `MemWrite(addr, 1, v)` (R33). -/
def State.memWrite (s : State) (addr v : Byte) : State :=
  { s with mem := s.mem.write addr.toNat v, mar := some addr, mdr := some v }

/-- `Emit(v)` (R20): the byte goes to the end of the output stream; it never blocks and never fails. -/
def State.emit (s : State) (v : Byte) : State := { s with out := s.out ++ [v] }

/-- The implicit decrement before a push (R11): wraps mod 256. -/
def State.decSp (s : State) : State := s.writeReg spReg (s.sp - 1#8)

/-- The implicit increment after a pop (R11): wraps mod 256. -/
def State.incSp (s : State) : State := s.writeReg spReg (s.sp + 1#8)

/-- `raise Cause(info)` (R155): the status becomes `Faulted(cause, info)` "and nothing more". The result is a next state. -/
def State.raise (s : State) (cause : Cause) (info : Nat) : State := s.setStatus (.faulted cause info)

/-- The cause codes 1 to 5 of R150 for a status port; nothing in the machine reads them (D13). -/
def Cause.code : Cause → Nat
  | .unsupportedOpcode => 1
  | .unsupportedAluOperation => 2
  | .divideByZero => 3
  | .addressOutOfRange => 4
  | .invalidRegisterIndex => 5

end Sys2Proof.Machine
end

