-- ==== Sys2Proof/Machine/Operands.lean ====
section
/-! DEFINITION. The operand forms (30_encoding.md R54) and the values the ALU computes from them (41_alu_arith_logic.md):
exact arithmetic on unsigned numbers, reduced mod 256 (R13, R91). -/

namespace Sys2Proof.Machine

/-- What an instruction answers. -/
abbrev Result := Host.Outcome State Fault Refusal

/-- An immediate operand is the operand byte itself: not extended, scaled or looked up (R54). -/
def immediate (b : Byte) : Byte := b

/-- XOR's implied scratch register `a + 2` (R54, R136); none for `a` = 6 or 7. -/
def scratchReg (a : Reg) : Option Reg :=
  if h : a.val + 2 < 8 then some ⟨a.val + 2, h⟩ else none

/-- ADD and ADDI: `(x + y) mod 256` (R92, R93). -/
def aluAdd (x y : Byte) : Byte := BitVec.ofNat 8 (x.toNat + y.toNat)

/-- MUL: `(x * y) mod 256` (R94). -/
def aluMul (x y : Byte) : Byte := BitVec.ofNat 8 (x.toNat * y.toNat)

/-- MOD: `x mod y` for `y` not 0 (R95). -/
def aluMod (x y : Byte) : Byte := BitVec.ofNat 8 (x.toNat % y.toNat)

/-- AND: bitwise (R96). -/
def aluAnd (x y : Byte) : Byte := x &&& y

/-- OR: bitwise (R97). -/
def aluOr (x y : Byte) : Byte := x ||| y

/-- NOT: `not8(x)`, which is `255 - x`, the complement within 8 bits (R6, R98). -/
def aluNot (x : Byte) : Byte := BitVec.ofNat 8 (255 - x.toNat)

/-- SHL: `(x * 2^y) mod 256`, the amount the whole byte (R99, D16). -/
def aluShl (x y : Byte) : Byte := BitVec.ofNat 8 (x.toNat * 2 ^ y.toNat)

/-- SHR: `x div 2^y`, logical, the amount the whole byte (R100, D16). -/
def aluShr (x y : Byte) : Byte := BitVec.ofNat 8 (x.toNat / 2 ^ y.toNat)

/-- The ALU path for `x[a] <- f x[a] x[b]` (R77, R90): the advance by 3 first, both reads before the one write. -/
def aluRegReg (f : Byte → Byte → Byte) (a b : Reg) (s : State) : Result :=
  let s1 := s.advance 3
  .next (s1.writeReg a (f (s1.readReg a) (s1.readReg b)))

/-- The ALU path for `x[a] <- f x[a] imm` (R77, R90). -/
def aluRegImm (f : Byte → Byte → Byte) (a : Reg) (imm : Byte) (s : State) : Result :=
  let s1 := s.advance 3
  .next (s1.writeReg a (f (s1.readReg a) (immediate imm)))

/-- A jump to the address in a register (R133): any byte value is a target. -/
def jumpReg (a : Reg) (s : State) : State := s.setPc (s.readReg a).toNat

/-- A push, the stack pointer decremented first; the value is computed from the state after the decrement (R11, R112). -/
def pushWith (v : State → Byte) (s : State) : State :=
  let s1 := s.decSp
  s1.memWrite s1.sp (v s1)

/-- A pop into a register: the load and the register write first, the increment second (R11, R113). -/
def popInto (a : Reg) (s : State) : State :=
  let r := s.memRead s.sp
  (r.2.writeReg a r.1).incSp

end Sys2Proof.Machine
end

