-- ==== Sys2Proof/Machine/Arith.lean ====
section
/-! DEFINITION. ADD, ADDI, MUL, MOD (41_alu_arith_logic.md R92 to R95). -/

namespace Sys2Proof.Machine

/-- ADD a, b (R92). -/
def execAdd (a b : Reg) (s : State) : Result := aluRegReg aluAdd a b s

/-- ADDI a, imm (R93). -/
def execAddi (a : Reg) (imm : Byte) (s : State) : Result := aluRegImm aluAdd a imm s

/-- MUL a, b (R94). -/
def execMul (a b : Reg) (s : State) : Result := aluRegReg aluMul a b s

/-- MOD a, b (R95): `DivideByZero(b)` is raised after `pc` has been advanced and before any register is written (R153). -/
def execMod (a b : Reg) (s : State) : Result :=
  if (s.advance 3).readReg b = 0#8 then .next ((s.advance 3).raise .divideByZero b.val)
  else aluRegReg aluMod a b s

end Sys2Proof.Machine
end

