-- ==== Sys2Proof/Machine/Control.lean ====
section
/-! DEFINITION. The control-flow handlers CALL, RET, JMP, JEQ, JNE (43_control_flow.md R130 to R138). A handler runs with
`pc` at its own opcode byte and writes `pc` once, last. -/

namespace Sys2Proof.Machine

/-- CALL under `CALL_LINK = STACK` (R131): push `pc + 2`, then `pc <- x[a]`, read after the push (D19). -/
def callStack (a : Reg) (s : State) : State :=
  jumpReg a (pushWith (fun _ => BitVec.ofNat 8 (s.pc + 2)) s)

/-- CALL under `CALL_LINK = VIA_R7` (R137): the return address into register 7, then PUSH R7, then `pc <- x[a]`. -/
def callViaR7 (a : Reg) (s : State) : State :=
  jumpReg a (pushWith (fun s1 => s1.readReg spReg) (s.writeReg spReg (BitVec.ofNat 8 (s.pc + 2))))

/-- CALL a (R131, R137). Check 4 of R75 is made here, before any effect: a return address above 255 does not fit a cell
(D7; log 9). -/
def execCall (a : Reg) (s : State) : Result :=
  if Config.lastAddress < s.pc + 2 then .next (s.raise .addressOutOfRange (s.pc + 2))
  else
    match s.callLink with
    | .stack => .next (callStack a s)
    | .viaR7 => .next (callViaR7 a s)

/-- RET under `CALL_LINK = STACK` (R132): pop into `pc`. -/
def retStack (s : State) : State :=
  let r := s.memRead s.sp
  r.2.incSp.setPc r.1.toNat

/-- RET under `CALL_LINK = VIA_R7` (R138): POP R7, then `pc <- x[7]`. -/
def retViaR7 (s : State) : State := jumpReg spReg (popInto spReg s)

/-- RET (R132, R138). -/
def execRet (s : State) : Result :=
  match s.callLink with
  | .stack => .next (retStack s)
  | .viaR7 => .next (retViaR7 s)

/-- JMP a (R133). -/
def execJmp (a : Reg) (s : State) : Result := .next (jumpReg a s)

/-- JEQ a (R134). -/
def execJeq (a : Reg) (s : State) : Result :=
  if s.flE then .next (jumpReg a s) else .next (s.advance 2)

/-- JNE a (R135). -/
def execJne (a : Reg) (s : State) : Result :=
  if s.flE then .next (s.advance 2) else .next (jumpReg a s)

end Sys2Proof.Machine
end

