-- ==== Sys2Proof/Machine/Flags.lean ====
section
/-! DEFINITION. The flags (10_state.md R16): the equal flag is the only architected bit and CMP its only writer. -/

namespace Sys2Proof.Machine

/-- The equal bit of R101: 1 iff the two registers are bitwise equal. -/
def equalFlag (x y : Byte) : Bool := x == y

/-- The flags register as a value: `FL.E` at bit 0; the reserved bits are always 0 (R16; log 10). -/
def State.flags (s : State) : Byte := if s.flE then 0x01#8 else 0x00#8

end Sys2Proof.Machine
end

