-- ==== Sys2Proof/Machine/Logic.lean ====
section
/-! DEFINITION. AND, OR, NOT, SHL, SHR, CMP (41_alu_arith_logic.md R96 to R101). -/

namespace Sys2Proof.Machine

/-- AND a, b (R96). -/
def execAnd (a b : Reg) (s : State) : Result := aluRegReg aluAnd a b s

/-- OR a, b (R97). -/
def execOr (a b : Reg) (s : State) : Result := aluRegReg aluOr a b s

/-- NOT a (R98). -/
def execNot (a : Reg) (s : State) : Result :=
  let s1 := s.advance 2
  .next (s1.writeReg a (aluNot (s1.readReg a)))

/-- SHL a, b (R99). -/
def execShl (a b : Reg) (s : State) : Result := aluRegReg aluShl a b s

/-- SHR a, b (R100). -/
def execShr (a b : Reg) (s : State) : Result := aluRegReg aluShr a b s

/-- CMP a, b (R101): writes the whole flags register and no general register. -/
def execCmp (a b : Reg) (s : State) : Result :=
  let s1 := s.advance 3
  .next (s1.setFlE (equalFlag (s1.readReg a) (s1.readReg b)))

end Sys2Proof.Machine
end

