-- ==== Sys2Proof/Machine/Move.lean ====
section
/-! DEFINITION. ST, LDI, PUSH, POP (42_alu_move_stack_sys.md R110 to R113). -/

namespace Sys2Proof.Machine

/-- ST a, b (R110): a register copy; no memory access. -/
def execSt (a b : Reg) (s : State) : Result :=
  let s1 := s.advance 3
  .next (s1.writeReg a (s1.readReg b))

/-- LDI a, imm (R111). -/
def execLdi (a : Reg) (imm : Byte) (s : State) : Result :=
  .next ((s.advance 3).writeReg a (immediate imm))

/-- PUSH a (R112): the register is read after the decrement, so `PUSH R7` stores the decremented pointer (D19). -/
def execPush (a : Reg) (s : State) : Result :=
  .next (pushWith (fun s1 => s1.readReg a) (s.advance 2))

/-- POP a (R113): the register is written before the increment, so `POP R7` loads and then adds one (D19). -/
def execPop (a : Reg) (s : State) : Result := .next (popInto a (s.advance 2))

end Sys2Proof.Machine
end

