-- ==== Sys2Proof/Machine/Sys.lean ====
section
/-! DEFINITION. PRN and HLT (42_alu_move_stack_sys.md R114, R115). -/

namespace Sys2Proof.Machine

/-- PRN a (R114). -/
def execPrn (a : Reg) (s : State) : Result :=
  let s1 := s.advance 2
  .next (s1.emit (s1.readReg a))

/-- HLT (R115): width 0, so `pc` stays on the HLT byte. -/
def execHlt (s : State) : Result := .next ((s.advance 0).setStatus .halted)

end Sys2Proof.Machine
end

