-- ==== Sys2Proof/Machine/Xor.lean ====
section
/-! DEFINITION. The XOR composite (43_control_flow.md R136). -/

namespace Sys2Proof.Machine

/-- The five register statements of R136 in order, `t` the scratch register; each sees the writes before it. -/
def xorSequence (a b t : Reg) (s : State) : State :=
  let s1 := s.writeReg t (s.readReg a)
  let s2 := s1.writeReg a (aluOr (s1.readReg a) (s1.readReg b))
  let s3 := s2.writeReg t (aluAnd (s2.readReg t) (s2.readReg b))
  let s4 := s3.writeReg t (aluNot (s3.readReg t))
  s4.writeReg a (aluAnd (s4.readReg a) (s4.readReg t))

/-- XOR a, b (R136): the sequence, then `pc <- pc + 3` (D8). The decoder never gives an `a` of 6 or 7 (check 3 of R75); what
`exec` answers on such a term is the model's own (DESIGN CHOICE, safe, log 8): what that check raises, with nothing else
changed. -/
def execXor (a b : Reg) (s : State) : Result :=
  match scratchReg a with
  | some t => .next ((xorSequence a b t s).advance 3)
  | none => .next (s.raise .invalidRegisterIndex (a.val + 2))

end Sys2Proof.Machine
end

