-- ==== Sys2Proof/WellFormed.lean ====
section
/-! DEFINITION. Which instructions the decoder can produce: the operand checks of 40_decode_and_step.md R75 that the types
of Syntax.lean do not already make. -/

namespace Sys2Proof

/-- Checks 1 and 2 of R75 hold by the type `Reg`; check 3 is the one left: XOR's scratch index `a + 2` is at most 7.
(Check 4 speaks of `pc` and is made where CALL runs.) -/
def Instr.wf : Instr → Bool
  | .hlt => true
  | .ret => true
  | .push _ => true
  | .pop _ => true
  | .prn _ => true
  | .call _ => true
  | .jmp _ => true
  | .jeq _ => true
  | .jne _ => true
  | .not _ => true
  | .ldi _ _ => true
  | .st _ _ => true
  | .add _ _ => true
  | .addi _ _ => true
  | .mul _ _ => true
  | .mod _ _ => true
  | .cmp _ _ => true
  | .and _ _ => true
  | .or _ _ => true
  | .xor a _ => decide (a.val + 2 ≤ 7)
  | .shl _ _ => true
  | .shr _ _ => true

end Sys2Proof
end

