-- ==== Sys2Proof/Decode.lean ====
section
/-! DEFINITION. The decoder (30_encoding.md R50 to R58, 40_decode_and_step.md R71 to R75), total on any list of bytes, and
after it the encoder, written from the same table. -/

namespace Sys2Proof

/-- The 22 opcodes of the table R56, in its order. -/
inductive Opcode where
  | hlt | ret | push | pop | prn | call | jmp | jeq | jne | not
  | ldi | st | add | addi | mul | mod | cmp | and | or | xor | shl | shr
  deriving DecidableEq, Repr

/-- Every opcode, in the table's order. -/
def Opcode.all : List Opcode :=
  [.hlt, .ret, .push, .pop, .prn, .call, .jmp, .jeq, .jne, .not] ++
  [.ldi, .st, .add, .addi, .mul, .mod, .cmp, .and, .or, .xor, .shl, .shr]

/-- The opcode byte of R56, as the table writes it in binary. The whole byte selects the instruction (R57, D20). -/
def Opcode.byte : Opcode → Byte
  | .hlt => 0b00000001#8
  | .ret => 0b00010001#8
  | .push => 0b01000101#8
  | .pop => 0b01000110#8
  | .prn => 0b01000111#8
  | .call => 0b01010000#8
  | .jmp => 0b01010100#8
  | .jeq => 0b01010101#8
  | .jne => 0b01010110#8
  | .not => 0b01101001#8
  | .ldi => 0b10000010#8
  | .st => 0b10000100#8
  | .add => 0b10100000#8
  | .addi => 0b10100001#8
  | .mul => 0b10100010#8
  | .mod => 0b10100100#8
  | .cmp => 0b10100111#8
  | .and => 0b10101000#8
  | .or => 0b10101010#8
  | .xor => 0b10101011#8
  | .shl => 0b10101100#8
  | .shr => 0b10101101#8

/-- The opcode lookup of R73: the row of the table whose byte is `ir`, if there is one. -/
def lookup (ir : Byte) : Option Opcode := Opcode.all.find? fun op => op.byte == ir

/-- The operand count of R52, from the two high bits of the opcode byte, defined opcode or not. -/
def operandCount (ir : Byte) : Nat :=
  if ir.extractLsb 7 6 = 0b10#2 then 2
  else if ir.extractLsb 7 6 = 0b01#2 then 1
  else 0

/-- The instruction width of R53 and R74, the number added to `pc`, from the operand count. -/
def widthOfCount (n : Nat) : Nat := if n = 0 then 0 else n + 1

/-- Why a list of bytes is not an instruction. -/
inductive DecodeError where
  /-- The bytes end before the `n` operand bytes the opcode byte calls for (R72). -/
  | truncated (n : Nat)
  /-- The opcode byte is in no row of the table (R58, R73). -/
  | unsupportedOpcode (ir : Byte)
  /-- A register index is above 7: operand a, operand b, or XOR's `a + 2` (R75). -/
  | invalidRegisterIndex (v : Nat)
  deriving DecidableEq, Repr

/-- An operand byte read as a register index: the whole byte, not masked (R55, D5). -/
def regOfByte (v : Byte) : Option Reg :=
  if h : v.toNat < 8 then some ⟨v.toNat, h⟩ else none

/-- The operand byte of a register index. -/
def byteOfReg (r : Reg) : Byte := BitVec.ofNat 8 r.val

/-- One register operand (check 1 of R75). -/
def decodeReg (a : Byte) (f : Reg → Instr) : Except DecodeError Instr :=
  match regOfByte a with
  | some ra => .ok (f ra)
  | none => .error (.invalidRegisterIndex a.toNat)

/-- Two register operands, a checked before b (checks 1 and 2 of R75). -/
def decodeRegReg (a b : Byte) (f : Reg → Reg → Instr) : Except DecodeError Instr :=
  match regOfByte a with
  | none => .error (.invalidRegisterIndex a.toNat)
  | some ra =>
    match regOfByte b with
    | none => .error (.invalidRegisterIndex b.toNat)
    | some rb => .ok (f ra rb)

/-- XOR's operands: as two registers, and then the scratch index `a + 2` (check 3 of R75). -/
def decodeXor (a b : Byte) : Except DecodeError Instr :=
  match decodeRegReg a b .xor with
  | .error e => .error e
  | .ok i => if 7 < a.toNat + 2 then .error (.invalidRegisterIndex (a.toNat + 2)) else .ok i

/-- The operands of each opcode (R54). A row with fewer than two operands does not look at the bytes it does not have. -/
def decodeOperands (op : Opcode) (a b : Byte) : Except DecodeError Instr :=
  match op with
  | .hlt => .ok .hlt
  | .ret => .ok .ret
  | .push => decodeReg a .push
  | .pop => decodeReg a .pop
  | .prn => decodeReg a .prn
  | .call => decodeReg a .call
  | .jmp => decodeReg a .jmp
  | .jeq => decodeReg a .jeq
  | .jne => decodeReg a .jne
  | .not => decodeReg a .not
  | .ldi => decodeReg a fun ra => .ldi ra b
  | .st => decodeRegReg a b .st
  | .add => decodeRegReg a b .add
  | .addi => decodeReg a fun ra => .addi ra b
  | .mul => decodeRegReg a b .mul
  | .mod => decodeRegReg a b .mod
  | .cmp => decodeRegReg a b .cmp
  | .and => decodeRegReg a b .and
  | .or => decodeRegReg a b .or
  | .xor => decodeXor a b
  | .shl => decodeRegReg a b .shl
  | .shr => decodeRegReg a b .shr

/-- The decoder: the instruction at the head of a list of bytes and the bytes after it. The errors come in the order of
R157: operand bytes missing, then no such opcode, then the register indices. -/
def decode : List Byte → Except DecodeError (Instr × List Byte)
  | [] => .error (.truncated 0)
  | ir :: rest =>
    if rest.length < operandCount ir then .error (.truncated (operandCount ir))
    else
      match lookup ir with
      | none => .error (.unsupportedOpcode ir)
      | some op =>
        match decodeOperands op (rest.getD 0 0) (rest.getD 1 0) with
        | .error e => .error e
        | .ok i => .ok (i, rest.drop (operandCount ir))

/-- The row of the table an instruction belongs to. -/
def opcodeOf : Instr → Opcode
  | .hlt => .hlt
  | .ret => .ret
  | .push _ => .push
  | .pop _ => .pop
  | .prn _ => .prn
  | .call _ => .call
  | .jmp _ => .jmp
  | .jeq _ => .jeq
  | .jne _ => .jne
  | .not _ => .not
  | .ldi _ _ => .ldi
  | .st _ _ => .st
  | .add _ _ => .add
  | .addi _ _ => .addi
  | .mul _ _ => .mul
  | .mod _ _ => .mod
  | .cmp _ _ => .cmp
  | .and _ _ => .and
  | .or _ _ => .or
  | .xor _ _ => .xor
  | .shl _ _ => .shl
  | .shr _ _ => .shr

/-- The operand bytes of an instruction, a then b (R51, R54). -/
def operandBytes : Instr → List Byte
  | .hlt => []
  | .ret => []
  | .push a => [byteOfReg a]
  | .pop a => [byteOfReg a]
  | .prn a => [byteOfReg a]
  | .call a => [byteOfReg a]
  | .jmp a => [byteOfReg a]
  | .jeq a => [byteOfReg a]
  | .jne a => [byteOfReg a]
  | .not a => [byteOfReg a]
  | .ldi a imm => [byteOfReg a, imm]
  | .st a b => [byteOfReg a, byteOfReg b]
  | .add a b => [byteOfReg a, byteOfReg b]
  | .addi a imm => [byteOfReg a, imm]
  | .mul a b => [byteOfReg a, byteOfReg b]
  | .mod a b => [byteOfReg a, byteOfReg b]
  | .cmp a b => [byteOfReg a, byteOfReg b]
  | .and a b => [byteOfReg a, byteOfReg b]
  | .or a b => [byteOfReg a, byteOfReg b]
  | .xor a b => [byteOfReg a, byteOfReg b]
  | .shl a b => [byteOfReg a, byteOfReg b]
  | .shr a b => [byteOfReg a, byteOfReg b]

/-- The bytes of an instruction in address order: the opcode byte, operand a, operand b (R34, R50, R51). -/
def encode (i : Instr) : List Byte := (opcodeOf i).byte :: operandBytes i

/-- The instruction width of R53: 0, 2 or 3, the number added to `pc` (not the number of cells; C1). -/
def widthOf (i : Instr) : Nat := widthOfCount (operandCount (opcodeOf i).byte)

/-- The set CF of R79: the opcodes that go to a control-flow handler, by list and not by a bit (R57, R76). -/
def isControlFlow : Instr → Bool
  | .call _ => true
  | .ret => true
  | .jmp _ => true
  | .jeq _ => true
  | .jne _ => true
  | .xor _ _ => true
  | .hlt => false
  | .push _ => false
  | .pop _ => false
  | .prn _ => false
  | .not _ => false
  | .ldi _ _ => false
  | .st _ _ => false
  | .add _ _ => false
  | .addi _ _ => false
  | .mul _ _ => false
  | .mod _ _ => false
  | .cmp _ _ => false
  | .and _ _ => false
  | .or _ _ => false
  | .shl _ _ => false
  | .shr _ _ => false

/-- The three bytes, lowest address first, of an instruction word numbered as the opcode table numbers it: the first byte is
bits 7 to 0; bits above `nbits` are zero. -/
def tableBytes (nbits w : Nat) : List Byte :=
  let v := w % 2 ^ nbits
  [BitVec.ofNat 8 v, BitVec.ofNat 8 (v / 256), BitVec.ofNat 8 (v / 65536)]

/-- What the decoder reads from a word of the opcode table. -/
def decodeTableWord (nbits w : Nat) : Option Instr :=
  match decode (tableBytes nbits w) with
  | .ok (i, _) => some i
  | .error _ => none

end Sys2Proof
end

