-- ==== Sys2Proof/Machine/Fetch.lean ====
section
/-! DEFINITION. Fetching an instruction's bytes (40_decode_and_step.md R71, R72) and what the decoder's errors raise. -/

namespace Sys2Proof.Machine

/-- Reads `n` cells at ascending addresses, each through MemRead (R72, R82). -/
def State.readCells (s : State) (addr n : Nat) : List Byte × State :=
  match n with
  | 0 => ([], s)
  | n + 1 =>
    let r := s.memRead (BitVec.ofNat 8 addr)
    let rest := State.readCells r.2 (addr + 1) n
    (r.1 :: rest.1, rest.2)

/-- Lines 1 to 5 of the step (R79): the bytes of the instruction at `pc` and the state after the reads, or the state after
`AddressOutOfRange` (R39). `pc` above 256 is reached by no run; such a fetch raises as 256 does (log 6). -/
def fetch (s : State) : Except State (List Byte × State) :=
  if Config.lastAddress < s.pc then .error (s.raise .addressOutOfRange s.pc)
  else
    let r := s.memRead (BitVec.ofNat 8 s.pc)
    let n := operandCount r.1
    if Config.lastAddress < s.pc + n then .error (r.2.raise .addressOutOfRange (s.pc + n))
    else
      let ops := r.2.readCells (s.pc + 1) n
      .ok (r.1 :: ops.1, ops.2)

/-- The fault a decoder error raises, `pc` being the address of the opcode byte (R73, R75, R154). The fetch leaves no
instruction truncated, so the first case is not reached in a step. -/
def raiseDecodeError (e : DecodeError) (s : State) : State :=
  match e with
  | .truncated n => s.raise .addressOutOfRange (s.pc + n)
  | .unsupportedOpcode ir => s.raise .unsupportedOpcode ir.toNat
  | .invalidRegisterIndex v => s.raise .invalidRegisterIndex v

end Sys2Proof.Machine
end

