-- ==== Sys2Proof/Machine/Step.lean ====
section
/-! DEFINITION. The step (40_decode_and_step.md R79). -/

namespace Sys2Proof.Machine

/-- One step: fetch, decode, then the instruction, or one fault taken as a next state. There is no step when the status is
Halted or Faulted (R70, R80). -/
def step (s : State) : Host.Outcome State Fault Refusal :=
  match s.status with
  | .halted => .fault .stuckHalted
  | .faulted cause info => .fault (.stuckFaulted cause info)
  | .running =>
    match fetch s with
    | .error t => .next t
    | .ok (bytes, t) =>
      match decode bytes with
      | .error e => .next (raiseDecodeError e t)
      | .ok (i, _) => exec i t

/-- The state with an instruction word of the opcode table placed at `pc`, the longest instruction's three bytes, the bits
above `nbits` zero (log 13). Bytes above address 255 have no cell. -/
def State.withFetchWord (s : State) (nbits w : Nat) : State :=
  { s with mem := s.mem.storeBytes s.pc (tableBytes nbits w) }

end Sys2Proof.Machine
end

