-- ==== Sys2Proof/Machine/Boot.lean ====
section
/-! DEFINITION. What the host can do before and between runs (70_reset_and_hazards.md R170 to R174): load a program, apply
reset. Neither is a step. -/

namespace Sys2Proof.Machine

/-- The loader (R173): bytes at ascending addresses from 0; registers, latches and `pc` are not touched. -/
def State.load (s : State) (image : List Byte) : State := { s with mem := s.mem.storeBytes 0 image }

/-- Reset applied in any status (R170): every piece of state at its value of R22; memory is not written (R171), and the
parameter `CALL_LINK` is no state of the hardware (R23). -/
def State.applyReset (s : State) : State := { State.reset with mem := s.mem, callLink := s.callLink }

/-- The state when the first step is taken, for the initial memory `image` (the parameter `IMAGE`, R5, R22; a list of 256
bytes gives every cell) and the parameter `CALL_LINK`. -/
def State.boot (image : List Byte) (link : CallLink) : State :=
  { State.reset with mem := Memory.storeBytes [] 0 image, callLink := link }

end Sys2Proof.Machine
end

