-- ==== Sys2Proof/Safety.lean ====
section
/-! DEFINITION. The terms in which claims about a run are made: what a state of a run satisfies, what one state leaves as
another had it, which fault a step has to report, and what an observer's state is. -/

namespace Sys2Proof.Machine

/-! ## The invariant of a run -/

/-- The pairs of cause and info that rules R151 to R156 let a `Faulted` status hold, when `pc` was at most 256. -/
def legalFault (cause : Cause) (info : Nat) : Prop :=
  match cause with
  | .unsupportedOpcode => info < 256 ∧ ∀ op : Opcode, op.byte ≠ BitVec.ofNat 8 info
  | .unsupportedAluOperation => False
  | .divideByZero => info < 8
  | .addressOutOfRange => info = 256 ∨ info = 257
  | .invalidRegisterIndex => 8 ≤ info ∧ info < 256

/-- A status of a run (R17). -/
def Status.legal (st : Status) : Prop :=
  match st with
  | .running => True
  | .halted => True
  | .faulted cause info => legalFault cause info

/-- The two latches hold the last access (R18): neither has a value, or `MAR` names a cell and `MDR` is that cell's byte
(the last value read from it or written to it, and nothing else writes memory). -/
def LatchesAgree (s : State) : Prop :=
  match s.mar, s.mdr with
  | none, none => True
  | some addr, some v => s.peek addr = v
  | none, some _ => False
  | some _, none => False

/-- What every state of a run satisfies. -/
structure Inv (s : State) : Prop where
  /-- The memory is in its canonical form. -/
  mem : s.mem.wf = true
  /-- `pc` takes the values 0 to 256 (R14). -/
  pc : s.pc ≤ 256
  /-- The latches hold the last access (R18). -/
  latches : LatchesAgree s
  /-- The status is one the rules allow (R17, R150). -/
  status : s.status.legal

/-! ## Frames -/

/-- Every general register outside `written` is as before. -/
def SameRegsExcept (written : List Reg) (s t : State) : Prop := ∀ r, r ∉ written → t.readReg r = s.readReg r

/-- Every cell of memory reads as before. -/
def SameMem (s t : State) : Prop := ∀ addr : Byte, t.peek addr = s.peek addr

/-- Every cell of memory but one reads as before. -/
def SameMemExcept (stored : Byte) (s t : State) : Prop := ∀ addr : Byte, addr ≠ stored → t.peek addr = s.peek addr

/-- Both latches are as before. -/
def SameLatches (s t : State) : Prop := t.mar = s.mar ∧ t.mdr = s.mdr

/-- Both latches hold one access. -/
def LatchesAre (addr v : Byte) (t : State) : Prop := t.mar = some addr ∧ t.mdr = some v

/-- The output stream is as before. -/
def SameOut (s t : State) : Prop := t.out = s.out

/-- The run status, and the parameter `CALL_LINK`, are as before. -/
def SameStatus (s t : State) : Prop := t.status = s.status ∧ t.callLink = s.callLink

/-- The equal flag is as before. -/
def SameFlag (s t : State) : Prop := t.flE = s.flE

/-- The common effect of R90: `x[a]` is the number `v`, `pc` has advanced by `w`, and everything else is as before. -/
def WritesOneReg (w : Nat) (a : Reg) (v : Nat) (s t : State) : Prop :=
  (t.readReg a).toNat = v ∧ t.pc = s.pc + w ∧ SameRegsExcept [a] s t ∧ SameFlag s t ∧ SameStatus s t ∧
    SameMem s t ∧ SameLatches s t ∧ SameOut s t

/-- Everything but `pc` is as before. -/
def OnlyPcChanges (s t : State) : Prop :=
  SameRegsExcept [] s t ∧ SameFlag s t ∧ SameStatus s t ∧ SameMem s t ∧ SameLatches s t ∧ SameOut s t

/-- Everything but `status` and the latches is as before (the state at a fault raised at decode, R163). -/
def OnlyStatusAndLatchesChange (s t : State) : Prop :=
  t.pc = s.pc ∧ SameRegsExcept [] s t ∧ SameFlag s t ∧ SameMem s t ∧ SameOut s t ∧ t.callLink = s.callLink

/-! ## What a step has to do -/

/-- The byte at an address as the fetch reads it. -/
def State.byteAt (s : State) (addr : Nat) : Byte := s.peek (BitVec.ofNat 8 addr)

/-- `n` bytes of memory from an address up. -/
def State.bytesAt (s : State) (addr n : Nat) : List Byte := (List.range n).map fun k => s.byteAt (addr + k)

/-- The rows whose operand b is a register index (check 2 of R75). -/
def secondIsRegister (op : Opcode) : Bool := operandCount op.byte == 2 && op != .ldi && op != .addi

/-- The fault of the first condition met in the order of R157, or none. It is written from R157 alone, beside the step. -/
def firstFault (s : State) : Option (Cause × Nat) :=
  let ir := s.byteAt s.pc
  let n := operandCount ir
  let a := (s.byteAt (s.pc + 1)).toNat
  let b := (s.byteAt (s.pc + 2)).toNat
  if 255 < s.pc then some (.addressOutOfRange, s.pc)
  else if 255 < s.pc + n then some (.addressOutOfRange, s.pc + n)
  else
    match lookup ir with
    | none => some (.unsupportedOpcode, ir.toNat)
    | some op =>
      if 1 ≤ n ∧ 7 < a then some (.invalidRegisterIndex, a)
      else if secondIsRegister op = true ∧ 7 < b then some (.invalidRegisterIndex, b)
      else if op = .xor ∧ 7 < a + 2 then some (.invalidRegisterIndex, a + 2)
      else if op = .call ∧ 255 < s.pc + 2 then some (.addressOutOfRange, s.pc + 2)
      else if op = .mod ∧ (regOfByte (s.byteAt (s.pc + 2))).map s.readReg = some 0#8 then some (.divideByZero, b)
      else none

/-! ## Runs and observers -/

/-- The run has ended well (R80): the status is Halted, and not Faulted. -/
def EndedWell (s : State) : Prop := s.status = .halted

/-- One step of a run leads from `s` to `t`. -/
def StepsTo (s t : State) : Prop := step s = .next t

/-- The states a run from `s` reaches. -/
inductive Reaches (s : State) : State → Prop where
  | start : Reaches s s
  | more (t u : State) (before : Reaches s t) (now : StepsTo t u) : Reaches s u

/-- A state without what only an outside observer reads: the latches (R18) and the output stream (R20). -/
def forgetObserved (s : State) : State := { s with mar := none, mdr := none, out := [] }

/-- An outcome seen without what only an outside observer reads. -/
def forgetOutcome (r : Result) : Result :=
  match r with
  | .next s => .next (forgetObserved s)
  | .fault f => .fault f
  | .refused x => .refused x

/-- The next state of an outcome, if it is one (for tests). -/
def nextState (r : Result) : Option State :=
  match r with
  | .next s => some s
  | .fault _ => none
  | .refused _ => none

end Sys2Proof.Machine
end

