-- ==== Sys2Proof/Certificates/Slice0/Obligations.lean ====
section
/-! DEFINITION. The statements for the provers, in the order of OBLIGATIONS.json. -/

open Sys2Proof Sys2Proof.Machine

/-! ## Encoding -/

/-- Decode and encode agree (R50 to R56): the bytes of every well-formed instruction, whatever follows them, decode to that
instruction, and what follows is left over. -/
def Obligations.DecodeOfEncode : Prop :=
  ∀ (i : Instr) (rest : List Byte), i.wf = true → decode (encode i ++ rest) = .ok (i, rest)

/-- The other direction: what decodes to an instruction is that instruction's own bytes and the rest, and the instruction
passes the decode checks (R55, R75). So no two byte strings are one instruction. -/
def Obligations.DecodedBytesAreTheEncoding : Prop :=
  ∀ (bs rest : List Byte) (i : Instr), decode bs = .ok (i, rest) → i.wf = true ∧ bs = encode i ++ rest

/-- A word of each format, written out from the table of R56, decodes to the instruction it stands for. -/
def Obligations.WordsOfTheTableDecode : Prop :=
  decode [0b00000001#8] = .ok (.hlt, []) ∧
  decode [0b00010001#8] = .ok (.ret, []) ∧
  decode [0b01010000#8, 1#8] = .ok (.call 1, []) ∧
  decode [0b01101001#8, 7#8] = .ok (.not 7, []) ∧
  decode [0b10000010#8, 6#8, 255#8] = .ok (.ldi 6 255#8, []) ∧
  decode [0b10100100#8, 0#8, 1#8] = .ok (.mod 0 1, []) ∧
  decode [0b10101011#8, 5#8, 1#8] = .ok (.xor 5 1, [])

/-- R52: the operand count is given by the two high bits of the opcode byte, whatever the byte. -/
def Obligations.OperandCountFromTheTwoHighBits : Prop :=
  ∀ ir : Byte,
    (ir.toNat / 64 = 2 → operandCount ir = 2) ∧ (ir.toNat / 64 = 1 → operandCount ir = 1) ∧
    (ir.toNat / 64 = 0 ∨ ir.toNat / 64 = 3 → operandCount ir = 0)

/-- R53 on the rows of R56: width 0 for HLT and RET, 2 for the eight one-operand instructions, 3 for the twelve two-operand
ones; exactly 234 byte values are no opcode (R58). -/
def Obligations.WidthsAndIllegalBytesOfTheTable : Prop :=
  (∀ op : Opcode, widthOfCount (operandCount op.byte) =
    if op = .hlt ∨ op = .ret then 0
    else if op ∈ [.push, .pop, .prn, .call, .jmp, .jeq, .jne, .not] then 2 else 3) ∧
  ((List.range 256).filter fun k => (lookup (BitVec.ofNat 8 k)).isNone).length = 234

/-! ## ALU instructions: result, completion and frame in one -/

/-- R92. -/
def Obligations.AddResult : Prop :=
  ∀ (a b : Reg) (s : State), encode (.add a b) = [0xA0#8, BitVec.ofNat 8 a.val, BitVec.ofNat 8 b.val] ∧
    ∃ t, exec (.add a b) s = .next t ∧
      WritesOneReg 3 a (((s.readReg a).toNat + (s.readReg b).toNat) % 256) s t

/-- R93: the immediate may be any byte. -/
def Obligations.AddiResult : Prop :=
  ∀ (a : Reg) (imm : Byte) (s : State), encode (.addi a imm) = [0xA1#8, BitVec.ofNat 8 a.val, imm] ∧
    ∃ t, exec (.addi a imm) s = .next t ∧
      WritesOneReg 3 a (((s.readReg a).toNat + imm.toNat) % 256) s t

/-- R94. -/
def Obligations.MulResult : Prop :=
  ∀ (a b : Reg) (s : State), encode (.mul a b) = [0xA2#8, BitVec.ofNat 8 a.val, BitVec.ofNat 8 b.val] ∧
    ∃ t, exec (.mul a b) s = .next t ∧
      WritesOneReg 3 a (((s.readReg a).toNat * (s.readReg b).toNat) % 256) s t

/-- R95 for a divisor that is not 0. -/
def Obligations.ModResult : Prop :=
  ∀ (a b : Reg) (s : State), s.readReg b ≠ 0#8 →
    encode (.mod a b) = [0xA4#8, BitVec.ofNat 8 a.val, BitVec.ofNat 8 b.val] ∧
    ∃ t, exec (.mod a b) s = .next t ∧
      WritesOneReg 3 a ((s.readReg a).toNat % (s.readReg b).toNat) s t

/-- R95 and R153 for the divisor 0: `DivideByZero(b)` with `pc` advanced by 3 and nothing else changed. The info value is the
spec's own decision D13. -/
def Obligations.ModByZeroFaults : Prop :=
  ∀ (a b : Reg) (s : State), s.readReg b = 0#8 →
    ∃ t, exec (.mod a b) s = .next t ∧ t.status = .faulted .divideByZero b.val ∧ t.pc = s.pc + 3 ∧
      SameRegsExcept [] s t ∧ SameFlag s t ∧ SameMem s t ∧ SameLatches s t ∧ SameOut s t ∧ t.callLink = s.callLink

/-- R96, bit by bit. -/
def Obligations.AndResult : Prop :=
  ∀ (a b : Reg) (s : State), encode (.and a b) = [0xA8#8, BitVec.ofNat 8 a.val, BitVec.ofNat 8 b.val] ∧
    ∃ t, exec (.and a b) s = .next t ∧
      WritesOneReg 3 a ((s.readReg a).toNat &&& (s.readReg b).toNat) s t

/-- R97, bit by bit. -/
def Obligations.OrResult : Prop :=
  ∀ (a b : Reg) (s : State), encode (.or a b) = [0xAA#8, BitVec.ofNat 8 a.val, BitVec.ofNat 8 b.val] ∧
    ∃ t, exec (.or a b) s = .next t ∧
      WritesOneReg 3 a ((s.readReg a).toNat ||| (s.readReg b).toNat) s t

/-- R98. -/
def Obligations.NotResult : Prop :=
  ∀ (a : Reg) (s : State), encode (.not a) = [0x69#8, BitVec.ofNat 8 a.val] ∧
    ∃ t, exec (.not a) s = .next t ∧ WritesOneReg 2 a (255 - (s.readReg a).toNat) s t

/-- R99. That the amount is the whole byte, not masked, is the spec's own decision D16. -/
def Obligations.ShlResult : Prop :=
  ∀ (a b : Reg) (s : State), encode (.shl a b) = [0xAC#8, BitVec.ofNat 8 a.val, BitVec.ofNat 8 b.val] ∧
    ∃ t, exec (.shl a b) s = .next t ∧
      WritesOneReg 3 a (((s.readReg a).toNat * 2 ^ (s.readReg b).toNat) % 256) s t

/-- R100. That the amount is the whole byte, not masked, is the spec's own decision D16. -/
def Obligations.ShrResult : Prop :=
  ∀ (a b : Reg) (s : State), encode (.shr a b) = [0xAD#8, BitVec.ofNat 8 a.val, BitVec.ofNat 8 b.val] ∧
    ∃ t, exec (.shr a b) s = .next t ∧
      WritesOneReg 3 a ((s.readReg a).toNat / 2 ^ (s.readReg b).toNat) s t

/-- R101: the flags register becomes 0x01 or 0x00, and no general register changes. -/
def Obligations.CmpResult : Prop :=
  ∀ (a b : Reg) (s : State), encode (.cmp a b) = [0xA7#8, BitVec.ofNat 8 a.val, BitVec.ofNat 8 b.val] ∧
    ∃ t, exec (.cmp a b) s = .next t ∧ (t.flE = true ↔ s.readReg a = s.readReg b) ∧
      t.flags = (if s.readReg a = s.readReg b then 1#8 else 0#8) ∧ t.pc = s.pc + 3 ∧
      SameRegsExcept [] s t ∧ SameStatus s t ∧ SameMem s t ∧ SameLatches s t ∧ SameOut s t

/-- R110. -/
def Obligations.StCopiesRegister : Prop :=
  ∀ (a b : Reg) (s : State), encode (.st a b) = [0x84#8, BitVec.ofNat 8 a.val, BitVec.ofNat 8 b.val] ∧
    ∃ t, exec (.st a b) s = .next t ∧ WritesOneReg 3 a (s.readReg b).toNat s t

/-- R111. -/
def Obligations.LdiLoadsImmediate : Prop :=
  ∀ (a : Reg) (imm : Byte) (s : State), encode (.ldi a imm) = [0x82#8, BitVec.ofNat 8 a.val, imm] ∧
    ∃ t, exec (.ldi a imm) s = .next t ∧ WritesOneReg 3 a imm.toNat s t

/-- R114: one value is appended to the output stream, and nothing but `pc` changes beside it. -/
def Obligations.PrnAppendsOneByte : Prop :=
  ∀ (a : Reg) (s : State), encode (.prn a) = [0x47#8, BitVec.ofNat 8 a.val] ∧
    ∃ t, exec (.prn a) s = .next t ∧ t.out = s.out ++ [s.readReg a] ∧ t.pc = s.pc + 2 ∧
      SameRegsExcept [] s t ∧ SameFlag s t ∧ SameStatus s t ∧ SameMem s t ∧ SameLatches s t

/-- R115: Halted, with `pc` on the HLT byte and nothing else changed. -/
def Obligations.HltHaltsInPlace : Prop :=
  ∀ s : State, encode .hlt = [0x01#8] ∧
    ∃ t, exec .hlt s = .next t ∧ t.status = .halted ∧ OnlyStatusAndLatchesChange s t ∧ SameLatches s t

/-! ## The stack -/

/-- R112: the stack pointer is decremented first, mod 256, and the register is read second. That `PUSH R7` so stores the
decremented pointer is the spec's own decision D19. -/
def Obligations.PushStoresAtDecrementedPointer : Prop :=
  ∀ (a : Reg) (s : State), s.mem.wf = true →
    encode (.push a) = [0x45#8, BitVec.ofNat 8 a.val] ∧
    ∃ t, exec (.push a) s = .next t ∧ t.readReg 7 = s.readReg 7 - 1#8 ∧
      t.peek (s.readReg 7 - 1#8) = (if a = 7 then s.readReg 7 - 1#8 else s.readReg a) ∧
      SameMemExcept (s.readReg 7 - 1#8) s t ∧
      LatchesAre (s.readReg 7 - 1#8) (if a = 7 then s.readReg 7 - 1#8 else s.readReg a) t ∧
      t.pc = s.pc + 2 ∧ SameRegsExcept [7] s t ∧ SameFlag s t ∧ SameStatus s t ∧ SameOut s t

/-- R113: the register is written first and the stack pointer incremented second, mod 256. That `POP R7` so loads and adds
one is the spec's own decision D19. -/
def Obligations.PopLoadsThenIncrements : Prop :=
  ∀ (a : Reg) (s : State), encode (.pop a) = [0x46#8, BitVec.ofNat 8 a.val] ∧
    ∃ t, exec (.pop a) s = .next t ∧
      (a ≠ 7 → t.readReg a = s.peek (s.readReg 7) ∧ t.readReg 7 = s.readReg 7 + 1#8) ∧
      (a = 7 → t.readReg 7 = s.peek (s.readReg 7) + 1#8) ∧
      LatchesAre (s.readReg 7) (s.peek (s.readReg 7)) t ∧
      t.pc = s.pc + 2 ∧ SameRegsExcept [a, 7] s t ∧ SameMem s t ∧ SameFlag s t ∧ SameStatus s t ∧ SameOut s t

/-- R116: a PUSH and a POP of the same register, register 7 too, leave every register as it was, and the cell below the
stack pointer holds what was pushed. -/
def Obligations.PushThenPopRestoresRegisters : Prop :=
  ∀ (a : Reg) (s : State), s.mem.wf = true →
    ∃ t u, exec (.push a) s = .next t ∧ exec (.pop a) t = .next u ∧ (∀ r, u.readReg r = s.readReg r) ∧
      (a ≠ 7 → u.peek (s.readReg 7 - 1#8) = s.readReg a)

/-- R116, last in first out: two pushes and two pops in the same order exchange two registers. -/
def Obligations.TwoPushesTwoPopsExchange : Prop :=
  ∀ (a b : Reg) (s : State), s.mem.wf = true → a ≠ 7 → b ≠ 7 →
    ∃ t u v w, exec (.push a) s = .next t ∧ exec (.push b) t = .next u ∧ exec (.pop a) u = .next v ∧
      exec (.pop b) v = .next w ∧ w.readReg a = s.readReg b ∧ w.readReg b = s.readReg a ∧ w.readReg 7 = s.readReg 7

/-! ## Control flow -/

/-- R131, the reading `CALL_LINK = STACK` that the spec chooses (its own decision D6): `pc + 2` is pushed and `x[a]`, read
after the push, is the target. -/
def Obligations.CallPushesReturnAddress : Prop :=
  ∀ (a : Reg) (s : State), s.callLink = .stack → s.pc + 2 ≤ 255 → s.mem.wf = true →
    encode (.call a) = [0x50#8, BitVec.ofNat 8 a.val] ∧
    ∃ t, exec (.call a) s = .next t ∧ t.readReg 7 = s.readReg 7 - 1#8 ∧
      t.peek (s.readReg 7 - 1#8) = BitVec.ofNat 8 (s.pc + 2) ∧ SameMemExcept (s.readReg 7 - 1#8) s t ∧
      LatchesAre (s.readReg 7 - 1#8) (BitVec.ofNat 8 (s.pc + 2)) t ∧
      t.pc = (if a = 7 then s.readReg 7 - 1#8 else s.readReg a).toNat ∧
      SameRegsExcept [7] s t ∧ SameFlag s t ∧ SameStatus s t ∧ SameOut s t

/-- R132, under `CALL_LINK = STACK` (D6): the popped byte goes to `pc`. -/
def Obligations.RetPopsIntoPc : Prop :=
  ∀ s : State, s.callLink = .stack →
    encode .ret = [0x11#8] ∧
    ∃ t, exec .ret s = .next t ∧ t.pc = (s.peek (s.readReg 7)).toNat ∧ t.readReg 7 = s.readReg 7 + 1#8 ∧
      LatchesAre (s.readReg 7) (s.peek (s.readReg 7)) t ∧
      SameRegsExcept [7] s t ∧ SameMem s t ∧ SameFlag s t ∧ SameStatus s t ∧ SameOut s t

/-- R137, the literal reading `CALL_LINK = VIA_R7` (D6): register 7 and the cell it names, the CALL's own operand byte, both
become `pc + 1`. -/
def Obligations.CallViaR7OverwritesItsOperand : Prop :=
  ∀ (a : Reg) (s : State), s.callLink = .viaR7 → s.pc + 2 ≤ 255 → s.mem.wf = true →
    ∃ t, exec (.call a) s = .next t ∧ (t.readReg 7).toNat = s.pc + 1 ∧
      (t.peek (BitVec.ofNat 8 (s.pc + 1))).toNat = s.pc + 1 ∧ SameMemExcept (BitVec.ofNat 8 (s.pc + 1)) s t ∧
      LatchesAre (BitVec.ofNat 8 (s.pc + 1)) (BitVec.ofNat 8 (s.pc + 1)) t ∧
      t.pc = (if a = 7 then s.pc + 1 else (s.readReg a).toNat) ∧
      SameRegsExcept [7] s t ∧ SameFlag s t ∧ SameStatus s t ∧ SameOut s t

/-- R138, the literal reading `CALL_LINK = VIA_R7` (D6): POP R7, then `pc <- x[7]`. -/
def Obligations.RetViaR7JumpsToIncrementedByte : Prop :=
  ∀ s : State, s.callLink = .viaR7 →
    ∃ t, exec .ret s = .next t ∧ t.readReg 7 = s.peek (s.readReg 7) + 1#8 ∧ t.pc = (t.readReg 7).toNat ∧
      LatchesAre (s.readReg 7) (s.peek (s.readReg 7)) t ∧
      SameRegsExcept [7] s t ∧ SameMem s t ∧ SameFlag s t ∧ SameStatus s t ∧ SameOut s t

/-- R139, and the same sentence under `VIA_R7` (R138): a RET in any state that has the stack pointer and the stack cell of
the state after the CALL leads to the address after the CALL; under STACK the stack pointer is then what it was before. -/
def Obligations.CallThenRetReturns : Prop :=
  ∀ (a : Reg) (s : State), s.pc + 2 ≤ 255 → s.mem.wf = true →
    ∃ t, exec (.call a) s = .next t ∧
      ∀ u : State, u.readReg 7 = t.readReg 7 → u.peek (t.readReg 7) = t.peek (t.readReg 7) → u.callLink = s.callLink →
        ∃ v, exec .ret u = .next v ∧ v.pc = s.pc + 2 ∧ (s.callLink = .stack → v.readReg 7 = s.readReg 7)

/-- R75 check 4 and R154: a CALL whose return address is above 255 raises `AddressOutOfRange` and changes nothing else. The
spec's own decision D7. -/
def Obligations.CallAtTheTopFaults : Prop :=
  ∀ (a : Reg) (s : State), 255 < s.pc + 2 →
    ∃ t, exec (.call a) s = .next t ∧ t.status = .faulted .addressOutOfRange (s.pc + 2) ∧
      OnlyStatusAndLatchesChange s t ∧ SameLatches s t

/-- R133. -/
def Obligations.JmpGoesToRegister : Prop :=
  ∀ (a : Reg) (s : State), encode (.jmp a) = [0x54#8, BitVec.ofNat 8 a.val] ∧
    ∃ t, exec (.jmp a) s = .next t ∧ t.pc = (s.readReg a).toNat ∧ OnlyPcChanges s t

/-- R134: both outcomes. -/
def Obligations.JeqJumpsIffEqual : Prop :=
  ∀ (a : Reg) (s : State), encode (.jeq a) = [0x55#8, BitVec.ofNat 8 a.val] ∧
    ∃ t, exec (.jeq a) s = .next t ∧ t.pc = (if s.flE = true then (s.readReg a).toNat else s.pc + 2) ∧ OnlyPcChanges s t

/-- R135: both outcomes. -/
def Obligations.JneJumpsIffNotEqual : Prop :=
  ∀ (a : Reg) (s : State), encode (.jne a) = [0x56#8, BitVec.ofNat 8 a.val] ∧
    ∃ t, exec (.jne a) s = .next t ∧ t.pc = (if s.flE = false then (s.readReg a).toNat else s.pc + 2) ∧ OnlyPcChanges s t

/-- R136: the composite is the exclusive OR, and `a + 2` is left holding `not8(A & B)`, unless operand b is the scratch
register `a + 2` itself, where the result is 0 and the scratch register holds `not8(A)`. The place of the write of `pc` is
the spec's own decision D8. -/
def Obligations.XorCompositeIsXor : Prop :=
  ∀ (a b scratch : Reg) (s : State), scratch.val = a.val + 2 →
    encode (.xor a b) = [0xAB#8, BitVec.ofNat 8 a.val, BitVec.ofNat 8 b.val] ∧
    ∃ t, exec (.xor a b) s = .next t ∧
      (b ≠ scratch → t.readReg a = s.readReg a ^^^ s.readReg b ∧
        (t.readReg scratch).toNat = 255 - (s.readReg a &&& s.readReg b).toNat) ∧
      (b = scratch → t.readReg a = 0#8 ∧ (t.readReg scratch).toNat = 255 - (s.readReg a).toNat) ∧
      t.pc = s.pc + 3 ∧ SameRegsExcept [a, scratch] s t ∧ SameFlag s t ∧ SameStatus s t ∧ SameMem s t ∧
      SameLatches s t ∧ SameOut s t

/-- The model's own choice (DESIGN CHOICE, log 8), no rule of the spec: the decoder never gives an XOR term with `a` of 6 or 7
and no step runs one. On such a term `exec` raises `InvalidRegisterIndex(a + 2)`, as the decode check does, and changes nothing
else. The machine's fault on such bytes is said of the step: StepRaisesTheFirstFault with FaultsArePrecise. -/
def Obligations.XorWithoutScratchFaults : Prop :=
  ∀ (a b : Reg) (s : State), 7 < a.val + 2 →
    ∃ t, exec (.xor a b) s = .next t ∧ t.status = .faulted .invalidRegisterIndex (a.val + 2) ∧
      OnlyStatusAndLatchesChange s t ∧ SameLatches s t

/-! ## The step -/

/-- R79: where the cells at `pc` decode to an instruction, the step is that instruction run at the same state with the
latches on the last byte fetched (R82). -/
def Obligations.StepRunsTheDecodedInstruction : Prop :=
  ∀ (s : State) (i : Instr), s.status = .running → s.pc + operandCount (s.byteAt s.pc) ≤ 255 →
    decode (s.bytesAt s.pc (operandCount (s.byteAt s.pc) + 1)) = .ok (i, []) →
    step s = exec i (s.latch (BitVec.ofNat 8 (s.pc + operandCount (s.byteAt s.pc)))
      (s.byteAt (s.pc + operandCount (s.byteAt s.pc))))

/-- R70 and R80: a step leads to a next state exactly when the status is Running; from Halted and from Faulted there is no
step, and no step is refused. -/
def Obligations.StepExistsIffRunning : Prop :=
  ∀ s : State, (s.status = .running ↔ ∃ t, step s = .next t) ∧ (s.status = .halted → step s = .fault .stuckHalted) ∧
    (∀ c i, s.status = .faulted c i → step s = .fault (.stuckFaulted c i))

/-- The invariant of a run is kept by every step: the memory stays in its canonical form, `pc` stays in 0..256 (R14), the
latches stay the last access (R18), and a Faulted status is one the rules give (R150 to R156). -/
def Obligations.StepKeepsInvariant : Prop :=
  ∀ s t : State, Inv s → step s = .next t → Inv t

/-- The invariant holds after reset, over every image and for both values of `CALL_LINK`. -/
def Obligations.InvariantHoldsAfterReset : Prop :=
  Inv State.reset ∧ ∀ (image : List Byte) (link : CallLink), Inv (State.boot image link)

/-- R157: a step raises exactly the fault of the first condition met in the rule's order, and ends Running or Halted where
none is met. The order and the conditions are in part the spec's own decisions D3, D4, D5, D7, D14. -/
def Obligations.StepRaisesTheFirstFault : Prop :=
  ∀ s : State, s.status = .running → ∃ t, step s = .next t ∧
    match firstFault s with
    | some (cause, info) => t.status = .faulted cause info
    | none => t.status = .running ∨ t.status = .halted

/-- R163: a step that faults changes no register, flag, memory cell or output, and `pc` only for `DivideByZero`, by 3. -/
def Obligations.FaultsArePrecise : Prop :=
  ∀ (s t : State) (cause : Cause) (info : Nat), s.status = .running → step s = .next t → t.status = .faulted cause info →
    SameRegsExcept [] s t ∧ SameFlag s t ∧ SameMem s t ∧ SameOut s t ∧ t.callLink = s.callLink ∧
      t.pc = (if cause = .divideByZero then s.pc + 3 else s.pc)

/-- R151: a byte that is in no row of the table faults after the operand bytes its high bits call for have been fetched. -/
def Obligations.UndefinedByteFaults : Prop :=
  ∀ (s : State) (ir : Byte), s.status = .running → s.byteAt s.pc = ir → s.pc + operandCount ir ≤ 255 →
    (∀ op : Opcode, op.byte ≠ ir) →
    ∃ t, step s = .next t ∧ t.status = .faulted .unsupportedOpcode ir.toNat ∧ OnlyStatusAndLatchesChange s t ∧
      LatchesAre (BitVec.ofNat 8 (s.pc + operandCount ir)) (s.byteAt (s.pc + operandCount ir)) t

/-- R154, the two cases of the fetch: `pc` = 256 reads nothing at all; operand bytes above 255 leave the latches on the opcode
byte. The spec's own decisions D3 and D4. -/
def Obligations.FetchAboveMemoryFaults : Prop :=
  ∀ s : State, s.status = .running →
    (s.pc = 256 → ∃ t, step s = .next t ∧ t.status = .faulted .addressOutOfRange 256 ∧
      OnlyStatusAndLatchesChange s t ∧ SameLatches s t) ∧
    (s.pc ≤ 255 → 255 < s.pc + operandCount (s.byteAt s.pc) →
      ∃ t, step s = .next t ∧ t.status = .faulted .addressOutOfRange (s.pc + operandCount (s.byteAt s.pc)) ∧
        OnlyStatusAndLatchesChange s t ∧ LatchesAre (BitVec.ofNat 8 s.pc) (s.byteAt s.pc) t)

/-- R75 and R156: operand a above 7 faults in every row that has one, whether or not the instruction would use the value;
operand b above 7 faults where it is a register index, after a; the latches are on the last operand byte. The spec's own
decision D5. -/
def Obligations.RegisterIndexAboveSevenFaults : Prop :=
  ∀ (s : State) (op : Opcode), s.status = .running → s.byteAt s.pc = op.byte → s.pc + operandCount op.byte ≤ 255 →
    (1 ≤ operandCount op.byte → 7 < (s.byteAt (s.pc + 1)).toNat →
      ∃ t, step s = .next t ∧ t.status = .faulted .invalidRegisterIndex (s.byteAt (s.pc + 1)).toNat ∧
        OnlyStatusAndLatchesChange s t ∧
        LatchesAre (BitVec.ofNat 8 (s.pc + operandCount op.byte)) (s.byteAt (s.pc + operandCount op.byte)) t) ∧
    (secondIsRegister op = true → (s.byteAt (s.pc + 1)).toNat ≤ 7 → 7 < (s.byteAt (s.pc + 2)).toNat →
      ∃ t, step s = .next t ∧ t.status = .faulted .invalidRegisterIndex (s.byteAt (s.pc + 2)).toNat ∧
        OnlyStatusAndLatchesChange s t ∧ LatchesAre (BitVec.ofNat 8 (s.pc + 2)) (s.byteAt (s.pc + 2)) t)

/-- R77: every instruction of the ALU path completes or faults with `pc` advanced by exactly its width, 0 for HLT. -/
def Obligations.AluPathAdvancesByWidth : Prop :=
  ∀ (i : Instr) (s : State), isControlFlow i = false → ∃ t, exec i s = .next t ∧ t.pc = s.pc + widthOf i

/-! ## Sentences about the whole machine -/

/-- R16: no instruction but CMP changes the equal flag. -/
def Obligations.OnlyCmpWritesTheFlag : Prop :=
  ∀ (i : Instr) (s t : State), exec i s = .next t → t.flE ≠ s.flE → ∃ a b, i = .cmp a b

/-- R31: only PUSH and CALL change memory, and only the cell the stack pointer then names. -/
def Obligations.OnlyPushAndCallWriteMemory : Prop :=
  ∀ (i : Instr) (s t : State) (addr : Byte), exec i s = .next t → t.peek addr ≠ s.peek addr →
    addr = t.readReg 7 ∧ ∃ a, i = .push a ∨ i = .call a

/-- R20 and R114: a step appends at most one byte to the output, and it is the register a PRN at `pc` names. -/
def Obligations.OnlyPrnEmits : Prop :=
  ∀ s t : State, step s = .next t →
    t.out = s.out ∨ (s.byteAt s.pc = 0x47#8 ∧ ∃ a : Reg, (s.byteAt (s.pc + 1)).toNat = a.val ∧ t.out = s.out ++ [s.readReg a])

/-- R80 and R115: a step ends in Halted exactly when the byte at `pc` is HLT's. -/
def Obligations.OnlyHltHalts : Prop :=
  ∀ s t : State, step s = .next t → (EndedWell t ↔ s.pc ≤ 255 ∧ s.byteAt s.pc = 0x01#8)

/-- R81 and R152: no step raises `UnsupportedAluOperation`. -/
def Obligations.AluOperationIsAlwaysSupported : Prop :=
  ∀ (s t : State) (info : Nat), step s = .next t → t.status ≠ .faulted .unsupportedAluOperation info

/-- R23: the parameter `CALL_LINK` is no state of the hardware: in the model's field nothing a run does changes it (log 5). -/
def Obligations.RunsKeepCallLink : Prop :=
  ∀ s t : State, Reaches s t → t.callLink = s.callLink

/-- R18 and R20: the latches and the output stream are read by nothing, so two states that differ only in them have steps
that differ only in them. -/
def Obligations.LatchesAndOutputAreNeverRead : Prop :=
  ∀ s u : State, forgetObserved s = forgetObserved u → forgetOutcome (step s) = forgetOutcome (step u)

/-- R82: a step that completes an instruction other than PUSH, POP, CALL and RET leaves the latches on the last byte of the
instruction. -/
def Obligations.LatchesEndOnTheLastByteFetched : Prop :=
  ∀ (s t : State), s.status = .running → step s = .next t → firstFault s = none →
    s.byteAt s.pc ∉ [0x45#8, 0x46#8, 0x50#8, 0x11#8] →
    LatchesAre (BitVec.ofNat 8 (s.pc + operandCount (s.byteAt s.pc))) (s.byteAt (s.pc + operandCount (s.byteAt s.pc))) t

/-! ## Memory, registers, reset -/

/-- R32. -/
def Obligations.MemReadReturnsCellAndLatches : Prop :=
  ∀ (s : State) (addr : Byte), (s.memRead addr).1 = s.peek addr ∧ LatchesAre addr (s.peek addr) (s.memRead addr).2 ∧
    SameMem s (s.memRead addr).2 ∧ SameRegsExcept [] s (s.memRead addr).2 ∧ SameFlag s (s.memRead addr).2 ∧
    SameStatus s (s.memRead addr).2 ∧ SameOut s (s.memRead addr).2 ∧ (s.memRead addr).2.pc = s.pc

/-- R33: the written cell reads as the byte, every other cell as before, and the memory stays canonical. -/
def Obligations.MemWriteStoresOneCell : Prop :=
  ∀ (s : State) (addr v : Byte), s.mem.wf = true →
    (s.memWrite addr v).peek addr = v ∧ SameMemExcept addr s (s.memWrite addr v) ∧ LatchesAre addr v (s.memWrite addr v) ∧
    (s.memWrite addr v).mem.wf = true ∧ SameRegsExcept [] s (s.memWrite addr v) ∧ SameFlag s (s.memWrite addr v) ∧
    SameStatus s (s.memWrite addr v) ∧ SameOut s (s.memWrite addr v) ∧ (s.memWrite addr v).pc = s.pc

/-- R10: every one of the eight registers is an ordinary one, register 0 too: it reads as the last byte written to it. -/
def Obligations.RegistersHoldWhatIsWritten : Prop :=
  ∀ (s : State) (r : Reg) (v : Byte), (s.writeReg r v).readReg r = v ∧ SameRegsExcept [r] s (s.writeReg r v)

/-- R22: the state when a run starts, for every image and both values of `CALL_LINK`. The zeros of registers 0 to 6 and of
`FL.E` are the spec's own decisions D9 and D10, the empty latches D12 (logs 2, 3, 4). -/
def Obligations.ResetValues : Prop :=
  State.reset = State.boot [] .stack ∧
  ∀ (image : List Byte) (link : CallLink), (State.boot image link).readReg 7 = 0xF4#8 ∧
    (∀ r : Reg, r ≠ 7 → (State.boot image link).readReg r = 0x00#8) ∧ (State.boot image link).pc = 0 ∧
    (State.boot image link).status = .running ∧ (State.boot image link).flE = false ∧
    (State.boot image link).mar = none ∧ (State.boot image link).mdr = none ∧ (State.boot image link).out = []

/-- R5, R22 and R173: the loaded image is what memory holds when a run starts, every byte at its address. -/
def Obligations.ImageIsTheInitialMemory : Prop :=
  ∀ (image : List Byte) (link : CallLink) (k : Nat) (hk : k < image.length), k ≤ 255 →
    (State.boot image link).byteAt k = image[k]

/-- R170 and R171: reset may be applied in any status; it gives every register its reset value, the status Running, no output
and empty latches, and it writes no memory cell. -/
def Obligations.ResetLeavesMemoryAlone : Prop :=
  ∀ s : State, SameMem s s.applyReset ∧ s.applyReset.pc = 0 ∧ s.applyReset.status = .running ∧
    s.applyReset.out = [] ∧ s.applyReset.flE = false ∧ s.applyReset.mar = none ∧ s.applyReset.mdr = none ∧
    s.applyReset.readReg 7 = 0xF4#8 ∧ ∀ r : Reg, r ≠ 7 → s.applyReset.readReg r = 0x00#8
end

