-- ==== Sys2Proof/Laws/Decode.lean ====
section
/-! SUPPORT. The decoder's small facts: what the table says of each opcode byte, and what each operand reader answers. -/

namespace Sys2Proof

/-- A row of the table is found by its byte (R73). -/
@[simp] theorem lookup_byte (op : Opcode) : lookup op.byte = some op := by cases op <;> decide

/-- The operand count of each row (the column `n` of R56). -/
theorem operandCount_byte (op : Opcode) :
    operandCount op.byte =
      match op with
      | .hlt | .ret => 0
      | .push | .pop | .prn | .call | .jmp | .jeq | .jne | .not => 1
      | .ldi | .st | .add | .addi | .mul | .mod | .cmp | .and | .or | .xor | .shl | .shr => 2 := by
  cases op <;> decide

/-- What is found by a byte has that byte. -/
theorem byte_of_lookup {ir : Byte} {op : Opcode} (h : lookup ir = some op) : op.byte = ir := by
  have := List.find?_some h
  simpa using this

theorem mem_all (op : Opcode) : op ∈ Opcode.all := by cases op <;> decide

/-- A byte is found in no row exactly when no row has it (R58). -/
theorem lookup_eq_none {ir : Byte} : lookup ir = none ↔ ∀ op : Opcode, op.byte ≠ ir := by
  simp [lookup, List.find?_eq_none, mem_all]

@[simp] theorem toNat_byteOfReg (r : Reg) : (byteOfReg r).toNat = r.val := by
  have := r.isLt
  simp [byteOfReg]
  omega

@[simp] theorem regOfByte_byteOfReg (r : Reg) : regOfByte (byteOfReg r) = some r := by
  simp [regOfByte]

/-- Only the byte of a register index is read as that register (R55: the byte is not masked). -/
theorem byteOfReg_of_regOfByte {v : Byte} {r : Reg} (h : regOfByte v = some r) : byteOfReg r = v := by
  unfold regOfByte at h
  split at h
  · cases h
    simp [byteOfReg]
  · cases h

theorem regOfByte_eq_none {v : Byte} : regOfByte v = none ↔ 7 < v.toNat := by
  unfold regOfByte
  split <;> simp <;> omega

/-- Everything the one-register reader can answer (check 1 of R75). -/
theorem decodeReg_cases (a : Byte) (f : Reg → Instr) :
    (∃ r, byteOfReg r = a ∧ decodeReg a f = .ok (f r)) ∨
      (7 < a.toNat ∧ decodeReg a f = .error (.invalidRegisterIndex a.toNat)) := by
  unfold decodeReg
  cases h : regOfByte a with
  | some r => exact .inl ⟨r, byteOfReg_of_regOfByte h, rfl⟩
  | none => exact .inr ⟨regOfByte_eq_none.1 h, rfl⟩

/-- Everything the two-register reader can answer, a before b (checks 1 and 2 of R75). -/
theorem decodeRegReg_cases (a b : Byte) (f : Reg → Reg → Instr) :
    (∃ r q, byteOfReg r = a ∧ byteOfReg q = b ∧ decodeRegReg a b f = .ok (f r q)) ∨
      (7 < a.toNat ∧ decodeRegReg a b f = .error (.invalidRegisterIndex a.toNat)) ∨
      (a.toNat ≤ 7 ∧ 7 < b.toNat ∧ decodeRegReg a b f = .error (.invalidRegisterIndex b.toNat)) := by
  unfold decodeRegReg
  cases h : regOfByte a with
  | none => exact .inr (.inl ⟨regOfByte_eq_none.1 h, rfl⟩)
  | some r =>
    have ha : a.toNat ≤ 7 := by
      have := toNat_byteOfReg r
      rw [byteOfReg_of_regOfByte h] at this
      omega
    cases g : regOfByte b with
    | none => exact .inr (.inr ⟨ha, regOfByte_eq_none.1 g, rfl⟩)
    | some q => exact .inl ⟨r, q, byteOfReg_of_regOfByte h, byteOfReg_of_regOfByte g, rfl⟩

/-- What reads as an instruction of a row passes the decode checks, belongs to the row, and has the row's operand bytes. -/
theorem decodeOperands_ok {op : Opcode} {a b : Byte} {i : Instr} (h : decodeOperands op a b = .ok i) :
    i.wf = true ∧ opcodeOf i = op ∧ operandBytes i = [a, b].take (operandCount op.byte) := by
  cases op <;> simp only [decodeOperands] at h
  case hlt | ret =>
    cases h
    exact ⟨rfl, rfl, by rw [operandCount_byte]; rfl⟩
  case xor =>
    unfold decodeXor at h
    rcases decodeRegReg_cases a b Instr.xor with ⟨r, q, rfl, rfl, e⟩ | ⟨_, e⟩ | ⟨_, _, e⟩ <;> rw [e] at h <;>
      dsimp only at h
    · split at h
      next => cases h
      next scratch =>
        cases h
        refine ⟨?_, rfl, by rw [operandCount_byte]; rfl⟩
        simp only [Instr.wf, toNat_byteOfReg, decide_eq_true_eq] at scratch ⊢
        omega
    all_goals cases h
  case push | pop | prn | call | jmp | jeq | jne | not | ldi | addi =>
    rcases decodeReg_cases a _ with ⟨r, rfl, e⟩ | ⟨_, e⟩ <;> rw [e] at h <;> cases h
    exact ⟨rfl, rfl, by rw [operandCount_byte]; rfl⟩
  all_goals
    rcases decodeRegReg_cases a b _ with ⟨r, q, rfl, rfl, e⟩ | ⟨_, e⟩ | ⟨_, _, e⟩ <;> rw [e] at h <;> cases h
    exact ⟨rfl, rfl, by rw [operandCount_byte]; rfl⟩

/-- The decoder on a list that has an opcode byte. -/
theorem decode_cons (ir : Byte) (rest : List Byte) :
    decode (ir :: rest) =
      if rest.length < operandCount ir then .error (.truncated (operandCount ir))
      else
        match lookup ir with
        | none => .error (.unsupportedOpcode ir)
        | some op =>
          match decodeOperands op (rest.getD 0 0) (rest.getD 1 0) with
          | .error e => .error e
          | .ok i => .ok (i, rest.drop (operandCount ir)) := rfl

/-- What it takes for a list with an opcode byte to decode (R72 to R75). -/
theorem decode_ok {ir : Byte} {rest left : List Byte} {i : Instr} (h : decode (ir :: rest) = .ok (i, left)) :
    operandCount ir ≤ rest.length ∧ lookup ir = some (opcodeOf i) ∧
      decodeOperands (opcodeOf i) (rest.getD 0 0) (rest.getD 1 0) = .ok i ∧ left = rest.drop (operandCount ir) := by
  rw [decode_cons] at h
  split at h
  next => cases h
  next long =>
    cases found : lookup ir with
    | none =>
      rw [found] at h
      cases h
    | some op =>
      rw [found] at h
      dsimp only at h
      cases read : decodeOperands op (rest.getD 0 0) (rest.getD 1 0) with
      | error e =>
        rw [read] at h
        cases h
      | ok j =>
        rw [read] at h
        cases h
        obtain ⟨-, row, -⟩ := decodeOperands_ok read
        exact ⟨by omega, by rw [row], by rw [row]; exact read, rfl⟩

end Sys2Proof
end

