-- ==== Sys2Proof/Laws/State.lean ====
section
/-! SUPPORT. One lemma per field and update of the state, true by unfolding, so that no later proof unfolds a record update;
and the register file's read after write. -/

namespace Sys2Proof.Machine

/-! `setPc` -/

@[simp] theorem setPc_regs (s : State) (t : Nat) : (s.setPc t).regs = s.regs := rfl
@[simp] theorem setPc_pc (s : State) (t : Nat) : (s.setPc t).pc = t := rfl
@[simp] theorem setPc_flE (s : State) (t : Nat) : (s.setPc t).flE = s.flE := rfl
@[simp] theorem setPc_status (s : State) (t : Nat) : (s.setPc t).status = s.status := rfl
@[simp] theorem setPc_mar (s : State) (t : Nat) : (s.setPc t).mar = s.mar := rfl
@[simp] theorem setPc_mdr (s : State) (t : Nat) : (s.setPc t).mdr = s.mdr := rfl
@[simp] theorem setPc_mem (s : State) (t : Nat) : (s.setPc t).mem = s.mem := rfl
@[simp] theorem setPc_out (s : State) (t : Nat) : (s.setPc t).out = s.out := rfl
@[simp] theorem setPc_callLink (s : State) (t : Nat) : (s.setPc t).callLink = s.callLink := rfl

/-! `advance` -/

@[simp] theorem advance_regs (s : State) (w : Nat) : (s.advance w).regs = s.regs := rfl
@[simp] theorem advance_pc (s : State) (w : Nat) : (s.advance w).pc = s.pc + w := rfl
@[simp] theorem advance_flE (s : State) (w : Nat) : (s.advance w).flE = s.flE := rfl
@[simp] theorem advance_status (s : State) (w : Nat) : (s.advance w).status = s.status := rfl
@[simp] theorem advance_mar (s : State) (w : Nat) : (s.advance w).mar = s.mar := rfl
@[simp] theorem advance_mdr (s : State) (w : Nat) : (s.advance w).mdr = s.mdr := rfl
@[simp] theorem advance_mem (s : State) (w : Nat) : (s.advance w).mem = s.mem := rfl
@[simp] theorem advance_out (s : State) (w : Nat) : (s.advance w).out = s.out := rfl
@[simp] theorem advance_callLink (s : State) (w : Nat) : (s.advance w).callLink = s.callLink := rfl

/-! `setFlE` -/

@[simp] theorem setFlE_regs (s : State) (v : Bool) : (s.setFlE v).regs = s.regs := rfl
@[simp] theorem setFlE_pc (s : State) (v : Bool) : (s.setFlE v).pc = s.pc := rfl
@[simp] theorem setFlE_flE (s : State) (v : Bool) : (s.setFlE v).flE = v := rfl
@[simp] theorem setFlE_status (s : State) (v : Bool) : (s.setFlE v).status = s.status := rfl
@[simp] theorem setFlE_mar (s : State) (v : Bool) : (s.setFlE v).mar = s.mar := rfl
@[simp] theorem setFlE_mdr (s : State) (v : Bool) : (s.setFlE v).mdr = s.mdr := rfl
@[simp] theorem setFlE_mem (s : State) (v : Bool) : (s.setFlE v).mem = s.mem := rfl
@[simp] theorem setFlE_out (s : State) (v : Bool) : (s.setFlE v).out = s.out := rfl
@[simp] theorem setFlE_callLink (s : State) (v : Bool) : (s.setFlE v).callLink = s.callLink := rfl

/-! `setStatus` -/

@[simp] theorem setStatus_regs (s : State) (v : Status) : (s.setStatus v).regs = s.regs := rfl
@[simp] theorem setStatus_pc (s : State) (v : Status) : (s.setStatus v).pc = s.pc := rfl
@[simp] theorem setStatus_flE (s : State) (v : Status) : (s.setStatus v).flE = s.flE := rfl
@[simp] theorem setStatus_status (s : State) (v : Status) : (s.setStatus v).status = v := rfl
@[simp] theorem setStatus_mar (s : State) (v : Status) : (s.setStatus v).mar = s.mar := rfl
@[simp] theorem setStatus_mdr (s : State) (v : Status) : (s.setStatus v).mdr = s.mdr := rfl
@[simp] theorem setStatus_mem (s : State) (v : Status) : (s.setStatus v).mem = s.mem := rfl
@[simp] theorem setStatus_out (s : State) (v : Status) : (s.setStatus v).out = s.out := rfl
@[simp] theorem setStatus_callLink (s : State) (v : Status) : (s.setStatus v).callLink = s.callLink := rfl

/-! `latch` -/

@[simp] theorem latch_regs (s : State) (addr v : Byte) : (s.latch addr v).regs = s.regs := rfl
@[simp] theorem latch_pc (s : State) (addr v : Byte) : (s.latch addr v).pc = s.pc := rfl
@[simp] theorem latch_flE (s : State) (addr v : Byte) : (s.latch addr v).flE = s.flE := rfl
@[simp] theorem latch_status (s : State) (addr v : Byte) : (s.latch addr v).status = s.status := rfl
@[simp] theorem latch_mar (s : State) (addr v : Byte) : (s.latch addr v).mar = some addr := rfl
@[simp] theorem latch_mdr (s : State) (addr v : Byte) : (s.latch addr v).mdr = some v := rfl
@[simp] theorem latch_mem (s : State) (addr v : Byte) : (s.latch addr v).mem = s.mem := rfl
@[simp] theorem latch_out (s : State) (addr v : Byte) : (s.latch addr v).out = s.out := rfl
@[simp] theorem latch_callLink (s : State) (addr v : Byte) : (s.latch addr v).callLink = s.callLink := rfl

/-! `memWrite` -/

@[simp] theorem memWrite_regs (s : State) (addr v : Byte) : (s.memWrite addr v).regs = s.regs := rfl
@[simp] theorem memWrite_pc (s : State) (addr v : Byte) : (s.memWrite addr v).pc = s.pc := rfl
@[simp] theorem memWrite_flE (s : State) (addr v : Byte) : (s.memWrite addr v).flE = s.flE := rfl
@[simp] theorem memWrite_status (s : State) (addr v : Byte) : (s.memWrite addr v).status = s.status := rfl
@[simp] theorem memWrite_mar (s : State) (addr v : Byte) : (s.memWrite addr v).mar = some addr := rfl
@[simp] theorem memWrite_mdr (s : State) (addr v : Byte) : (s.memWrite addr v).mdr = some v := rfl
@[simp] theorem memWrite_mem (s : State) (addr v : Byte) : (s.memWrite addr v).mem = s.mem.write addr.toNat v := rfl
@[simp] theorem memWrite_out (s : State) (addr v : Byte) : (s.memWrite addr v).out = s.out := rfl
@[simp] theorem memWrite_callLink (s : State) (addr v : Byte) : (s.memWrite addr v).callLink = s.callLink := rfl

/-! `emit` -/

@[simp] theorem emit_regs (s : State) (v : Byte) : (s.emit v).regs = s.regs := rfl
@[simp] theorem emit_pc (s : State) (v : Byte) : (s.emit v).pc = s.pc := rfl
@[simp] theorem emit_flE (s : State) (v : Byte) : (s.emit v).flE = s.flE := rfl
@[simp] theorem emit_status (s : State) (v : Byte) : (s.emit v).status = s.status := rfl
@[simp] theorem emit_mar (s : State) (v : Byte) : (s.emit v).mar = s.mar := rfl
@[simp] theorem emit_mdr (s : State) (v : Byte) : (s.emit v).mdr = s.mdr := rfl
@[simp] theorem emit_mem (s : State) (v : Byte) : (s.emit v).mem = s.mem := rfl
@[simp] theorem emit_out (s : State) (v : Byte) : (s.emit v).out = s.out ++ [v] := rfl
@[simp] theorem emit_callLink (s : State) (v : Byte) : (s.emit v).callLink = s.callLink := rfl

/-! `raise` -/

@[simp] theorem raise_regs (s : State) (c : Cause) (info : Nat) : (s.raise c info).regs = s.regs := rfl
@[simp] theorem raise_pc (s : State) (c : Cause) (info : Nat) : (s.raise c info).pc = s.pc := rfl
@[simp] theorem raise_flE (s : State) (c : Cause) (info : Nat) : (s.raise c info).flE = s.flE := rfl
@[simp] theorem raise_status (s : State) (c : Cause) (info : Nat) : (s.raise c info).status = .faulted c info := rfl
@[simp] theorem raise_mar (s : State) (c : Cause) (info : Nat) : (s.raise c info).mar = s.mar := rfl
@[simp] theorem raise_mdr (s : State) (c : Cause) (info : Nat) : (s.raise c info).mdr = s.mdr := rfl
@[simp] theorem raise_mem (s : State) (c : Cause) (info : Nat) : (s.raise c info).mem = s.mem := rfl
@[simp] theorem raise_out (s : State) (c : Cause) (info : Nat) : (s.raise c info).out = s.out := rfl
@[simp] theorem raise_callLink (s : State) (c : Cause) (info : Nat) : (s.raise c info).callLink = s.callLink := rfl

/-! `writeReg` -/

@[simp] theorem writeReg_regs (s : State) (r : Reg) (v : Byte) : (s.writeReg r v).regs = s.regs.set r v := rfl
@[simp] theorem writeReg_pc (s : State) (r : Reg) (v : Byte) : (s.writeReg r v).pc = s.pc := rfl
@[simp] theorem writeReg_flE (s : State) (r : Reg) (v : Byte) : (s.writeReg r v).flE = s.flE := rfl
@[simp] theorem writeReg_status (s : State) (r : Reg) (v : Byte) : (s.writeReg r v).status = s.status := rfl
@[simp] theorem writeReg_mar (s : State) (r : Reg) (v : Byte) : (s.writeReg r v).mar = s.mar := rfl
@[simp] theorem writeReg_mdr (s : State) (r : Reg) (v : Byte) : (s.writeReg r v).mdr = s.mdr := rfl
@[simp] theorem writeReg_mem (s : State) (r : Reg) (v : Byte) : (s.writeReg r v).mem = s.mem := rfl
@[simp] theorem writeReg_out (s : State) (r : Reg) (v : Byte) : (s.writeReg r v).out = s.out := rfl
@[simp] theorem writeReg_callLink (s : State) (r : Reg) (v : Byte) : (s.writeReg r v).callLink = s.callLink := rfl

/-! `decSp` -/

@[simp] theorem decSp_pc (s : State) : s.decSp.pc = s.pc := rfl
@[simp] theorem decSp_flE (s : State) : s.decSp.flE = s.flE := rfl
@[simp] theorem decSp_status (s : State) : s.decSp.status = s.status := rfl
@[simp] theorem decSp_mar (s : State) : s.decSp.mar = s.mar := rfl
@[simp] theorem decSp_mdr (s : State) : s.decSp.mdr = s.mdr := rfl
@[simp] theorem decSp_mem (s : State) : s.decSp.mem = s.mem := rfl
@[simp] theorem decSp_out (s : State) : s.decSp.out = s.out := rfl
@[simp] theorem decSp_callLink (s : State) : s.decSp.callLink = s.callLink := rfl

/-! `incSp` -/

@[simp] theorem incSp_pc (s : State) : s.incSp.pc = s.pc := rfl
@[simp] theorem incSp_flE (s : State) : s.incSp.flE = s.flE := rfl
@[simp] theorem incSp_status (s : State) : s.incSp.status = s.status := rfl
@[simp] theorem incSp_mar (s : State) : s.incSp.mar = s.mar := rfl
@[simp] theorem incSp_mdr (s : State) : s.incSp.mdr = s.mdr := rfl
@[simp] theorem incSp_mem (s : State) : s.incSp.mem = s.mem := rfl
@[simp] theorem incSp_out (s : State) : s.incSp.out = s.out := rfl
@[simp] theorem incSp_callLink (s : State) : s.incSp.callLink = s.callLink := rfl

/-! The views of a state -/

theorem peek_congr {s t : State} (h : t.mem = s.mem) (addr : Byte) : t.peek addr = s.peek addr := by
  simp [State.peek, h]

theorem readReg_congr {s t : State} (h : t.regs = s.regs) (r : Reg) : t.readReg r = s.readReg r := by
  simp [State.readReg, h]

/-- The register file: a read sees the last write to the same register and no other (R10). -/
@[simp] theorem readReg_writeReg (s : State) (r q : Reg) (v : Byte) :
    (s.writeReg r v).readReg q = if q = r then v else s.readReg q := by
  simp only [State.readReg, State.writeReg, Fin.getElem_fin, Vector.getElem_set, Fin.ext_iff, eq_comm]

theorem sp_def (s : State) : s.sp = s.readReg spReg := rfl

@[simp] theorem readReg_setPc (s : State) (t : Nat) (r : Reg) : (s.setPc t).readReg r = s.readReg r := rfl
@[simp] theorem peek_setPc (s : State) (t : Nat) (x : Byte) : (s.setPc t).peek x = s.peek x := rfl
@[simp] theorem readReg_advance (s : State) (w : Nat) (r : Reg) : (s.advance w).readReg r = s.readReg r := rfl
@[simp] theorem peek_advance (s : State) (w : Nat) (x : Byte) : (s.advance w).peek x = s.peek x := rfl
@[simp] theorem readReg_setFlE (s : State) (v : Bool) (r : Reg) : (s.setFlE v).readReg r = s.readReg r := rfl
@[simp] theorem peek_setFlE (s : State) (v : Bool) (x : Byte) : (s.setFlE v).peek x = s.peek x := rfl
@[simp] theorem readReg_setStatus (s : State) (v : Status) (r : Reg) : (s.setStatus v).readReg r = s.readReg r := rfl
@[simp] theorem peek_setStatus (s : State) (v : Status) (x : Byte) : (s.setStatus v).peek x = s.peek x := rfl
@[simp] theorem readReg_latch (s : State) (addr v : Byte) (r : Reg) : (s.latch addr v).readReg r = s.readReg r := rfl
@[simp] theorem peek_latch (s : State) (addr v : Byte) (x : Byte) : (s.latch addr v).peek x = s.peek x := rfl
@[simp] theorem readReg_memWrite (s : State) (addr v : Byte) (r : Reg) : (s.memWrite addr v).readReg r = s.readReg r := rfl
@[simp] theorem readReg_emit (s : State) (v : Byte) (r : Reg) : (s.emit v).readReg r = s.readReg r := rfl
@[simp] theorem peek_emit (s : State) (v : Byte) (x : Byte) : (s.emit v).peek x = s.peek x := rfl
@[simp] theorem readReg_raise (s : State) (c : Cause) (info : Nat) (r : Reg) : (s.raise c info).readReg r = s.readReg r := rfl
@[simp] theorem peek_raise (s : State) (c : Cause) (info : Nat) (x : Byte) : (s.raise c info).peek x = s.peek x := rfl
@[simp] theorem peek_writeReg (s : State) (r : Reg) (v x : Byte) : (s.writeReg r v).peek x = s.peek x := rfl
@[simp] theorem peek_decSp (s : State) (x : Byte) : s.decSp.peek x = s.peek x := rfl
@[simp] theorem peek_incSp (s : State) (x : Byte) : s.incSp.peek x = s.peek x := rfl

theorem readReg_decSp (s : State) (r : Reg) : s.decSp.readReg r = if r = spReg then s.sp - 1#8 else s.readReg r := by
  simp [State.decSp]

theorem readReg_incSp (s : State) (r : Reg) : s.incSp.readReg r = if r = spReg then s.sp + 1#8 else s.readReg r := by
  simp [State.incSp]

@[simp] theorem sp_decSp (s : State) : s.decSp.sp = s.sp - 1#8 := by simp [sp_def, readReg_decSp]

@[simp] theorem sp_incSp (s : State) : s.incSp.sp = s.sp + 1#8 := by simp [sp_def, readReg_incSp]

@[simp] theorem memRead_fst (s : State) (addr : Byte) : (s.memRead addr).1 = s.peek addr := rfl

@[simp] theorem memRead_snd (s : State) (addr : Byte) : (s.memRead addr).2 = s.latch addr (s.peek addr) := rfl

end Sys2Proof.Machine
end

