-- ==== Sys2Proof/Laws/Memory.lean ====
section
/-! SUPPORT. The memory's laws: a read after a write, and that every operation keeps the canonical form. -/

namespace Sys2Proof.Machine

/-- The canonical form from a lower address on implies it from any address below. -/
theorem memWfFrom_mono {lo hi : Nat} {m : Memory} (h : memWfFrom hi m = true) (le : lo ≤ hi) : memWfFrom lo m = true := by
  cases m with
  | nil => rfl
  | cons c rest =>
    obtain ⟨k, v⟩ := c
    simp only [memWfFrom, Bool.and_eq_true, decide_eq_true_eq] at h ⊢
    exact ⟨⟨⟨by omega, h.1.1.2⟩, h.1.2⟩, h.2⟩

/-- A cell below every listed address reads as an unlisted one. -/
theorem read_below {lo addr : Nat} {m : Memory} (h : memWfFrom lo m = true) (lt : addr < lo) :
    m.read addr = Config.unlistedByte := by
  induction m generalizing lo with
  | nil => rfl
  | cons c rest ih =>
    obtain ⟨k, v⟩ := c
    simp only [memWfFrom, Bool.and_eq_true, decide_eq_true_eq] at h
    rw [Memory.read, if_neg (by omega), ih h.2 (by omega)]

theorem read_consCell_self {lo addr : Nat} {m : Memory} (h : memWfFrom lo m = true) (lt : addr < lo) (v : Byte) :
    Memory.read (consCell addr v m) addr = v := by
  unfold consCell
  split
  next e => rw [read_below h lt, e]
  next => simp [Memory.read]

theorem read_consCell_other {addr other : Nat} (m : Memory) (v : Byte) (ne : other ≠ addr) :
    Memory.read (consCell addr v m) other = m.read other := by
  unfold consCell
  split
  next => rfl
  next => simp [Memory.read, Ne.symm ne]

/-- A read of the cell just written gives the byte written. -/
theorem read_write_self {m : Memory} (h : m.wf = true) (addr : Nat) (v : Byte) : (m.write addr v).read addr = v := by
  suffices ∀ lo, memWfFrom lo m = true → (m.write addr v).read addr = v from this 0 h
  clear h
  intro lo h
  induction m generalizing lo with
  | nil => exact read_consCell_self (lo := addr + 1) rfl (by omega) v
  | cons c rest ih =>
    obtain ⟨k, u⟩ := c
    have hk := h
    simp only [memWfFrom, Bool.and_eq_true, decide_eq_true_eq] at hk
    unfold Memory.write
    split
    · exact read_consCell_self (lo := k) (by simp [memWfFrom, hk]) (by assumption) v
    split
    · exact read_consCell_self hk.2 (by omega) v
    · rw [Memory.read, if_neg (by omega)]
      exact ih _ hk.2

/-- A write leaves every other cell alone. -/
theorem read_write_other (m : Memory) {addr other : Nat} (v : Byte) (ne : other ≠ addr) :
    (m.write addr v).read other = m.read other := by
  induction m with
  | nil => exact read_consCell_other [] v ne
  | cons c rest ih =>
    obtain ⟨k, u⟩ := c
    unfold Memory.write
    split
    · exact read_consCell_other _ v ne
    split
    next e =>
      rw [read_consCell_other rest v ne]
      simp [Memory.read, show k ≠ other by omega]
    next => simp only [Memory.read, ih]

theorem consCell_wf {lo addr : Nat} {m : Memory} (h : memWfFrom (addr + 1) m = true) (le : lo ≤ addr)
    (top : addr ≤ Config.lastAddress) (v : Byte) : memWfFrom lo (consCell addr v m) = true := by
  unfold consCell
  split
  next => exact memWfFrom_mono h (by omega)
  next ne => simp [memWfFrom, h, le, top, ne]

/-- A write keeps the canonical form. -/
theorem write_wf {m : Memory} (h : m.wf = true) {addr : Nat} (top : addr ≤ Config.lastAddress) (v : Byte) :
    (m.write addr v).wf = true := by
  suffices ∀ lo, lo ≤ addr → memWfFrom lo m = true → memWfFrom lo (m.write addr v) = true from this 0 (by omega) h
  clear h
  intro lo le h
  induction m generalizing lo with
  | nil => exact consCell_wf rfl le top v
  | cons c rest ih =>
    obtain ⟨k, u⟩ := c
    have hk := h
    simp only [memWfFrom, Bool.and_eq_true, decide_eq_true_eq] at hk
    unfold Memory.write
    split
    next lt => exact consCell_wf (by simp [memWfFrom, hk]; omega) le top v
    split
    next e => exact consCell_wf (by subst e; exact hk.2) le top v
    next => simp [memWfFrom, hk, ih (k + 1) (by omega) hk.2]

/-- The loader's store keeps the canonical form. -/
theorem storeBytes_wf {m : Memory} (h : m.wf = true) (addr : Nat) (bs : List Byte) : (m.storeBytes addr bs).wf = true := by
  induction bs generalizing m addr with
  | nil => exact h
  | cons b rest ih =>
    refine ih ?_ _
    split
    · exact write_wf h ‹_› b
    · exact h

/-- The loader's store leaves the cells below its first address alone. -/
theorem read_storeBytes_below (m : Memory) {addr other : Nat} (lt : other < addr) (bs : List Byte) :
    (m.storeBytes addr bs).read other = m.read other := by
  induction bs generalizing m addr with
  | nil => rfl
  | cons b rest ih =>
    rw [Memory.storeBytes, ih _ (by omega)]
    split
    · exact read_write_other m b (by omega)
    · rfl

theorem toNat_le_lastAddress (addr : Byte) : addr.toNat ≤ Config.lastAddress := by
  have := addr.isLt
  simp only [Config.lastAddress]
  omega

/-- MemWrite, as a read of any cell sees it (R33). -/
theorem peek_memWrite {s : State} (h : s.mem.wf = true) (addr v x : Byte) :
    (s.memWrite addr v).peek x = if x = addr then v else s.peek x := by
  split
  next e => subst e; exact read_write_self h _ v
  next ne => exact read_write_other s.mem v fun e => ne (BitVec.eq_of_toNat_eq e)

/-- MemWrite leaves every other cell alone, whatever form the memory has (R33). -/
theorem peek_memWrite_other (s : State) {addr x : Byte} (v : Byte) (ne : x ≠ addr) :
    (s.memWrite addr v).peek x = s.peek x :=
  read_write_other s.mem v fun e => ne (BitVec.eq_of_toNat_eq e)

/-- MemWrite keeps the canonical form. -/
theorem memWrite_wf {s : State} (h : s.mem.wf = true) (addr v : Byte) : (s.memWrite addr v).mem.wf = true :=
  write_wf h (toNat_le_lastAddress addr) v

/-- Nothing is listed after reset. -/
theorem reset_mem_wf : State.reset.mem.wf = true := rfl

end Sys2Proof.Machine
end

