-- ==== Sys2Proof/Laws/Ops.lean ====
section
/-! SUPPORT. What each shared operation of the meanings does, said once: the lemmas the proofs about instructions cite. -/

namespace Sys2Proof.Machine

theorem sameRegs_of_regs_eq {s t : State} (h : t.regs = s.regs) (written : List Reg) : SameRegsExcept written s t :=
  fun r _ => readReg_congr h r

theorem sameMem_of_mem_eq {s t : State} (h : t.mem = s.mem) : SameMem s t := fun addr => peek_congr h addr

/-- A write of one register changes that register only. -/
theorem sameRegs_writeReg (s : State) (r : Reg) (v : Byte) : SameRegsExcept [r] s (s.writeReg r v) := by
  intro q hq
  simp_all

/-- The effect of R90, for any state reached by an advance and one register write. -/
theorem writesOneReg_advance (w : Nat) (a : Reg) (v : Byte) (s : State) :
    WritesOneReg w a v.toNat s ((s.advance w).writeReg a v) :=
  ⟨by simp, rfl, sameRegs_writeReg (s.advance w) a v, rfl, ⟨rfl, rfl⟩, fun _ => rfl, ⟨rfl, rfl⟩, rfl⟩

/-- The ALU path with two registers always completes, writes operand a's register and nothing else (R77, R90). -/
theorem aluRegReg_spec (f : Byte → Byte → Byte) (a b : Reg) (s : State) :
    ∃ t, aluRegReg f a b s = .next t ∧ WritesOneReg 3 a (f (s.readReg a) (s.readReg b)).toNat s t :=
  ⟨_, rfl, writesOneReg_advance 3 a _ s⟩

/-- The ALU path with an immediate always completes, writes operand a's register and nothing else (R77, R90). -/
theorem aluRegImm_spec (f : Byte → Byte → Byte) (a : Reg) (imm : Byte) (s : State) :
    ∃ t, aluRegImm f a imm s = .next t ∧ WritesOneReg 3 a (f (s.readReg a) imm).toNat s t :=
  ⟨_, rfl, writesOneReg_advance 3 a _ s⟩

/-! The values of the ALU, as numbers -/

theorem toNat_aluAdd (x y : Byte) : (aluAdd x y).toNat = (x.toNat + y.toNat) % 256 := by simp [aluAdd]

theorem toNat_aluMul (x y : Byte) : (aluMul x y).toNat = (x.toNat * y.toNat) % 256 := by simp [aluMul]

theorem toNat_aluMod (x y : Byte) : (aluMod x y).toNat = x.toNat % y.toNat := by
  have := Nat.mod_le x.toNat y.toNat
  have := x.isLt
  simp [aluMod]
  omega

theorem toNat_aluNot (x : Byte) : (aluNot x).toNat = 255 - x.toNat := by
  simp [aluNot]
  omega

theorem toNat_aluShl (x y : Byte) : (aluShl x y).toNat = (x.toNat * 2 ^ y.toNat) % 256 := by simp [aluShl]

theorem toNat_aluShr (x y : Byte) : (aluShr x y).toNat = x.toNat / 2 ^ y.toNat := by
  have := Nat.div_le_self x.toNat (2 ^ y.toNat)
  have := x.isLt
  simp [aluShr]
  omega

/-! The stack -/

/-- The state a push ends in, field by field; `v` is computed after the decrement (R11, R33). -/
theorem pushWith_eq (v : State → Byte) (s : State) :
    pushWith v s = (s.writeReg spReg (s.sp - 1#8)).memWrite (s.sp - 1#8) (v (s.writeReg spReg (s.sp - 1#8))) := by
  simp [pushWith, State.decSp, sp_def]

/-- A push stores one byte at the decremented pointer and moves nothing else but the pointer and the latches. -/
theorem pushWith_spec (v : State → Byte) {s : State} (h : s.mem.wf = true) :
    (pushWith v s).sp = s.sp - 1#8 ∧ (pushWith v s).peek (s.sp - 1#8) = v s.decSp ∧
      SameMemExcept (s.sp - 1#8) s (pushWith v s) ∧ LatchesAre (s.sp - 1#8) (v s.decSp) (pushWith v s) ∧
      SameRegsExcept [spReg] s (pushWith v s) ∧ (pushWith v s).mem.wf = true := by
  rw [pushWith_eq]
  refine ⟨by simp [sp_def], ?_, ?_, ⟨rfl, rfl⟩, ?_, memWrite_wf (s := s.writeReg spReg (s.sp - 1#8)) h _ _⟩
  · rw [peek_memWrite (by exact h), if_pos rfl]
    rfl
  · exact fun x ne => peek_memWrite_other (s.writeReg spReg (s.sp - 1#8)) _ ne
  · exact sameRegs_writeReg s spReg _

/-- The state a pop ends in: the byte into the register, and then the increment of whatever the pointer then is (R113). -/
theorem popInto_eq (a : Reg) (s : State) :
    popInto a s = ((s.latch s.sp (s.peek s.sp)).writeReg a (s.peek s.sp)).incSp := rfl

/-- A pop moves the register and the pointer and the latches only, and reads the cell the pointer named (R32, R113). -/
theorem popInto_spec (a : Reg) (s : State) :
    (a ≠ spReg → (popInto a s).readReg a = s.peek s.sp ∧ (popInto a s).sp = s.sp + 1#8) ∧
      (a = spReg → (popInto a s).sp = s.peek s.sp + 1#8) ∧
      SameRegsExcept [a, spReg] s (popInto a s) ∧ LatchesAre s.sp (s.peek s.sp) (popInto a s) := by
  rw [popInto_eq]
  refine ⟨fun ne => ⟨by simp [readReg_incSp, ne], by simp [sp_def, readReg_incSp, ne.symm]⟩,
    fun e => by simp [sp_def, readReg_incSp, e], ?_, rfl, rfl⟩
  intro r hr
  simp only [List.mem_cons, List.not_mem_nil, or_false, not_or] at hr
  simp [readReg_incSp, hr]

/-- XOR's scratch register is the one two above operand a, and exists for `a` up to 5 (R75, R136). -/
theorem scratchReg_of_val {a t : Reg} (h : t.val = a.val + 2) : scratchReg a = some t := by
  have := t.isLt
  rw [scratchReg, dif_pos (by omega)]
  exact congrArg some (Fin.ext h.symm)

theorem scratchReg_none {a : Reg} (h : 7 < a.val + 2) : scratchReg a = none := by
  rw [scratchReg, dif_neg (by omega)]

/-- Every way the scratch register can come out. -/
theorem scratchReg_cases (a : Reg) :
    (∃ t, scratchReg a = some t ∧ t.val = a.val + 2) ∨ (scratchReg a = none ∧ 7 < a.val + 2) := by
  unfold scratchReg
  split
  · exact .inl ⟨_, rfl, rfl⟩
  · exact .inr ⟨rfl, by omega⟩

/-- XOR's five statements write operand a's register and the scratch register only (R136). -/
theorem sameRegs_xorSequence (a b t : Reg) (s : State) : SameRegsExcept [a, t] s (xorSequence a b t s) := by
  intro r hr
  simp only [List.mem_cons, List.not_mem_nil, or_false, not_or] at hr
  simp [xorSequence, hr]

/-- XOR's five statements leave everything outside the register file alone (R136). -/
theorem xorSequence_frame (a b t : Reg) (s : State) :
    xorSequence a b t s = { s with regs := (xorSequence a b t s).regs } := rfl

/-- What XOR's five statements compute, in the source's order of writes (R136): with `B` the value operand b has after the
copy, `a` ends as `(A | B) & not8(A & B)` and the scratch register as `not8(A & B)`. -/
theorem xorSequence_values {a t : Reg} (b : Reg) (ne : t ≠ a) (s : State) :
    let A := s.readReg a
    let B := if b = t then A else s.readReg b
    (xorSequence a b t s).readReg t = aluNot (aluAnd A B) ∧
      (xorSequence a b t s).readReg a = aluAnd (aluOr A B) (aluNot (aluAnd A B)) := by
  intro A B
  by_cases e : b = t
  · subst e
    simp [xorSequence, A, B, ne, ne.symm]
  · by_cases h : b = a
    · subst h
      simp [xorSequence, A, B, ne, ne.symm, aluOr]
    · simp [xorSequence, A, B, ne, ne.symm, e, h]

end Sys2Proof.Machine
end

