-- ==== Sys2Proof/Laws/PerInstr.lean ====
section
/-! SUPPORT. Facts about every instruction as syntax, one lemma per constructor. -/

namespace Sys2Proof.Laws

/-- An instruction occupies the opcode byte and the operand bytes the opcode's two high bits call for (R50, R52), and its
row is found by its byte (R56). -/
def EncodeLength.Statement (i : Instr) : Prop :=
  (encode i).length = operandCount (opcodeOf i).byte + 1 ∧ lookup (opcodeOf i).byte = some (opcodeOf i)

theorem EncodeLength.of_operands {i : Instr} (h : operandCount (opcodeOf i).byte = (operandBytes i).length) :
    EncodeLength.Statement i :=
  ⟨by simp [encode, h], lookup_byte _⟩

theorem EncodeLength.hlt : EncodeLength.Statement (.hlt) := EncodeLength.of_operands (operandCount_byte .hlt)
theorem EncodeLength.ret : EncodeLength.Statement (.ret) := EncodeLength.of_operands (operandCount_byte .ret)
theorem EncodeLength.push (a : Reg) : EncodeLength.Statement (.push a) := EncodeLength.of_operands (operandCount_byte .push)
theorem EncodeLength.pop (a : Reg) : EncodeLength.Statement (.pop a) := EncodeLength.of_operands (operandCount_byte .pop)
theorem EncodeLength.prn (a : Reg) : EncodeLength.Statement (.prn a) := EncodeLength.of_operands (operandCount_byte .prn)
theorem EncodeLength.call (a : Reg) : EncodeLength.Statement (.call a) := EncodeLength.of_operands (operandCount_byte .call)
theorem EncodeLength.jmp (a : Reg) : EncodeLength.Statement (.jmp a) := EncodeLength.of_operands (operandCount_byte .jmp)
theorem EncodeLength.jeq (a : Reg) : EncodeLength.Statement (.jeq a) := EncodeLength.of_operands (operandCount_byte .jeq)
theorem EncodeLength.jne (a : Reg) : EncodeLength.Statement (.jne a) := EncodeLength.of_operands (operandCount_byte .jne)
theorem EncodeLength.not (a : Reg) : EncodeLength.Statement (.not a) := EncodeLength.of_operands (operandCount_byte .not)
theorem EncodeLength.ldi (a : Reg) (imm : Byte) : EncodeLength.Statement (.ldi a imm) := EncodeLength.of_operands (operandCount_byte .ldi)
theorem EncodeLength.st (a b : Reg) : EncodeLength.Statement (.st a b) := EncodeLength.of_operands (operandCount_byte .st)
theorem EncodeLength.add (a b : Reg) : EncodeLength.Statement (.add a b) := EncodeLength.of_operands (operandCount_byte .add)
theorem EncodeLength.addi (a : Reg) (imm : Byte) : EncodeLength.Statement (.addi a imm) := EncodeLength.of_operands (operandCount_byte .addi)
theorem EncodeLength.mul (a b : Reg) : EncodeLength.Statement (.mul a b) := EncodeLength.of_operands (operandCount_byte .mul)
theorem EncodeLength.mod (a b : Reg) : EncodeLength.Statement (.mod a b) := EncodeLength.of_operands (operandCount_byte .mod)
theorem EncodeLength.cmp (a b : Reg) : EncodeLength.Statement (.cmp a b) := EncodeLength.of_operands (operandCount_byte .cmp)
theorem EncodeLength.and (a b : Reg) : EncodeLength.Statement (.and a b) := EncodeLength.of_operands (operandCount_byte .and)
theorem EncodeLength.or (a b : Reg) : EncodeLength.Statement (.or a b) := EncodeLength.of_operands (operandCount_byte .or)
theorem EncodeLength.xor (a b : Reg) : EncodeLength.Statement (.xor a b) := EncodeLength.of_operands (operandCount_byte .xor)
theorem EncodeLength.shl (a b : Reg) : EncodeLength.Statement (.shl a b) := EncodeLength.of_operands (operandCount_byte .shl)
theorem EncodeLength.shr (a b : Reg) : EncodeLength.Statement (.shr a b) := EncodeLength.of_operands (operandCount_byte .shr)

end Sys2Proof.Laws
end

