-- ==== Sys2Proof/Laws/Step.lean ====
section
/-! SUPPORT. The fetch and the step, inverted once: every way a step can go. -/

namespace Sys2Proof.Machine

/-- Reading cells gives the bytes there and moves the latches only; with at least one cell read they end on the last. -/
theorem readCells_spec (s : State) (addr n : Nat) :
    (s.readCells addr n).1 = s.bytesAt addr n ∧
      (s.readCells addr n).2 =
        if n = 0 then s else s.latch (BitVec.ofNat 8 (addr + n - 1)) (s.byteAt (addr + n - 1)) := by
  induction n generalizing s addr with
  | zero => exact ⟨rfl, rfl⟩
  | succ n ih =>
    obtain ⟨bytes, rest⟩ := ih (s.memRead (BitVec.ofNat 8 addr)).2 (addr + 1)
    constructor
    · rw [State.readCells, bytes, State.bytesAt, State.bytesAt, List.range_succ_eq_map, List.map_cons, List.map_map]
      refine congrArg₂ _ rfl (List.map_congr_left fun k _ => ?_)
      simp only [Function.comp, Nat.succ_eq_add_one, Nat.add_assoc, Nat.add_comm 1]
      rfl
    · rw [State.readCells, rest]
      cases n with
      | zero => rfl
      | succ n =>
        rw [if_neg (by omega), if_neg (by omega), show addr + 1 + (n + 1) - 1 = addr + (n + 1 + 1) - 1 by omega]
        rfl

/-- Every way a fetch can go (R71, R72): above the memory, operand bytes above it, or the instruction's bytes with the
latches on the last. -/
theorem fetch_cases (s : State) :
    (255 < s.pc ∧ fetch s = .error (s.raise .addressOutOfRange s.pc)) ∨
    (s.pc ≤ 255 ∧ 255 < s.pc + operandCount (s.byteAt s.pc) ∧
      fetch s = .error ((s.latch (BitVec.ofNat 8 s.pc) (s.byteAt s.pc)).raise .addressOutOfRange
        (s.pc + operandCount (s.byteAt s.pc)))) ∨
    (s.pc + operandCount (s.byteAt s.pc) ≤ 255 ∧
      fetch s = .ok (s.bytesAt s.pc (operandCount (s.byteAt s.pc) + 1),
        s.latch (BitVec.ofNat 8 (s.pc + operandCount (s.byteAt s.pc)))
          (s.byteAt (s.pc + operandCount (s.byteAt s.pc))))) := by
  have cell : (s.memRead (BitVec.ofNat 8 s.pc)).1 = s.byteAt s.pc := rfl
  by_cases top : 255 < s.pc
  · exact .inl ⟨top, if_pos top⟩
  refine .inr ?_
  by_cases operands : 255 < s.pc + operandCount (s.byteAt s.pc)
  · refine .inl ⟨by omega, operands, ?_⟩
    rw [fetch, if_neg (by exact top)]
    exact if_pos operands
  refine .inr ⟨by omega, ?_⟩
  obtain ⟨bytes, after⟩ := readCells_spec s s.pc (operandCount (s.byteAt s.pc) + 1)
  rw [fetch, if_neg (by exact top)]
  refine (if_neg operands).trans (congrArg Except.ok (Prod.ext ?_ ?_))
  · rw [← bytes]
    rfl
  · rw [if_neg (by omega)] at after
    exact after

/-- The fetched bytes begin with the opcode byte and go on with its operand bytes. -/
theorem bytesAt_cons (s : State) (addr n : Nat) :
    s.bytesAt addr (n + 1) = s.byteAt addr :: s.bytesAt (addr + 1) n := by
  rw [State.bytesAt, List.range_succ_eq_map, List.map_cons, List.map_map]
  exact congrArg₂ _ rfl (List.map_congr_left fun k _ => by simp [Nat.add_assoc, Nat.add_comm 1])

theorem length_bytesAt (s : State) (addr n : Nat) : (s.bytesAt addr n).length = n := by simp [State.bytesAt]

theorem getD_bytesAt (s : State) (addr : Nat) {n k : Nat} (h : k < n) :
    (s.bytesAt addr n).getD k 0 = s.byteAt (addr + k) := by
  simp [State.bytesAt, List.getD, h]

/-! What the operand reader answers, condition by condition (R75) -/

theorem regOfByte_of_le {v : Byte} (h : v.toNat ≤ 7) : ∃ r, regOfByte v = some r := by
  cases e : regOfByte v with
  | some r => exact ⟨r, rfl⟩
  | none =>
    have := regOfByte_eq_none.1 e
    omega

/-- Check 1 of R75. -/
theorem decodeOperands_bad_a {op : Opcode} {a : Byte} (b : Byte) (n : 1 ≤ operandCount op.byte) (ha : 7 < a.toNat) :
    decodeOperands op a b = .error (.invalidRegisterIndex a.toNat) := by
  have one (f : Reg → Instr) : decodeReg a f = .error (.invalidRegisterIndex a.toNat) := by
    simp [decodeReg, regOfByte_eq_none.2 ha]
  have two (f : Reg → Reg → Instr) : decodeRegReg a b f = .error (.invalidRegisterIndex a.toNat) := by
    simp [decodeRegReg, regOfByte_eq_none.2 ha]
  cases op
  case hlt | ret => simp [operandCount_byte] at n
  case xor => simp [decodeOperands, decodeXor, two]
  all_goals first | exact one _ | exact two _

/-- Check 2 of R75. -/
theorem decodeOperands_bad_b {op : Opcode} {a b : Byte} (second : secondIsRegister op = true) (ha : a.toNat ≤ 7)
    (hb : 7 < b.toNat) : decodeOperands op a b = .error (.invalidRegisterIndex b.toNat) := by
  obtain ⟨r, hr⟩ := regOfByte_of_le ha
  have two (f : Reg → Reg → Instr) : decodeRegReg a b f = .error (.invalidRegisterIndex b.toNat) := by
    simp [decodeRegReg, hr, regOfByte_eq_none.2 hb]
  cases op
  case xor => simp [decodeOperands, decodeXor, two]
  all_goals first | exact two _ | simp [secondIsRegister, operandCount_byte] at second

/-- Check 3 of R75. -/
theorem decodeOperands_bad_scratch {a b : Byte} (ha : a.toNat ≤ 7) (hb : b.toNat ≤ 7) (top : 7 < a.toNat + 2) :
    decodeOperands .xor a b = .error (.invalidRegisterIndex (a.toNat + 2)) := by
  obtain ⟨r, hr⟩ := regOfByte_of_le ha
  obtain ⟨q, hq⟩ := regOfByte_of_le hb
  simp [decodeOperands, decodeXor, decodeRegReg, hr, hq, show 5 < a.toNat by omega]

/-- All three checks passed. -/
theorem decodeOperands_good {op : Opcode} {a b : Byte} (ha : 1 ≤ operandCount op.byte → a.toNat ≤ 7)
    (hb : secondIsRegister op = true → b.toNat ≤ 7) (hx : op = .xor → a.toNat + 2 ≤ 7) :
    ∃ i, decodeOperands op a b = .ok i := by
  have one (h : a.toNat ≤ 7) (f : Reg → Instr) : ∃ i, decodeReg a f = .ok i := by
    obtain ⟨r, hr⟩ := regOfByte_of_le h
    exact ⟨f r, by simp [decodeReg, hr]⟩
  have two (h : a.toNat ≤ 7) (g : b.toNat ≤ 7) (f : Reg → Reg → Instr) : ∃ i, decodeRegReg a b f = .ok i := by
    obtain ⟨r, hr⟩ := regOfByte_of_le h
    obtain ⟨q, hq⟩ := regOfByte_of_le g
    exact ⟨f r q, by simp [decodeRegReg, hr, hq]⟩
  cases op
  case hlt | ret => exact ⟨_, rfl⟩
  case xor =>
    obtain ⟨i, hi⟩ := two (ha (by decide)) (hb (by decide)) .xor
    exact ⟨i, by simp only [decodeOperands, decodeXor, hi]; rw [if_neg (by have := hx rfl; omega)]⟩
  case push | pop | prn | call | jmp | jeq | jne | not | ldi | addi => exact one (ha (by decide)) _
  all_goals exact two (ha (by decide)) (hb (by decide)) _

/-- What the fetched bytes of an instruction decode to: no operand byte is missing and none is left over. -/
theorem decode_fetched (s : State) :
    decode (s.bytesAt s.pc (operandCount (s.byteAt s.pc) + 1)) =
      match lookup (s.byteAt s.pc) with
      | none => .error (.unsupportedOpcode (s.byteAt s.pc))
      | some op =>
        match decodeOperands op ((s.bytesAt (s.pc + 1) (operandCount op.byte)).getD 0 0)
          ((s.bytesAt (s.pc + 1) (operandCount op.byte)).getD 1 0) with
        | .error e => .error e
        | .ok i => .ok (i, []) := by
  rw [bytesAt_cons, decode_cons, if_neg (by rw [length_bytesAt]; omega)]
  cases found : lookup (s.byteAt s.pc) with
  | none => rfl
  | some op =>
    simp only [byte_of_lookup found]
    cases decodeOperands op _ _ with
    | error e => rfl
    | ok i => simp [List.drop_eq_nil_of_le, length_bytesAt]

/-- A decoder error raises one of three causes and does nothing else (R155). -/
theorem raiseDecodeError_cases (e : DecodeError) (s : State) :
    ∃ cause info, raiseDecodeError e s = s.raise cause info ∧
      (cause = .unsupportedOpcode ∨ cause = .addressOutOfRange ∨ cause = .invalidRegisterIndex) := by
  cases e with
  | truncated n => exact ⟨_, _, rfl, .inr (.inl rfl)⟩
  | unsupportedOpcode ir => exact ⟨_, _, rfl, .inl rfl⟩
  | invalidRegisterIndex v => exact ⟨_, _, rfl, .inr (.inr rfl)⟩

/-- Every way a step can go (R79), from any status. -/
theorem step_cases (s : State) :
    (s.status = .halted ∧ step s = .fault .stuckHalted) ∨
    (∃ c i, s.status = .faulted c i ∧ step s = .fault (.stuckFaulted c i)) ∨
    (s.status = .running ∧ ∃ t, fetch s = .error t ∧ step s = .next t) ∨
    (s.status = .running ∧ ∃ bytes t e, fetch s = .ok (bytes, t) ∧ decode bytes = .error e ∧
      step s = .next (raiseDecodeError e t)) ∨
    (s.status = .running ∧ ∃ bytes t i rest, fetch s = .ok (bytes, t) ∧ decode bytes = .ok (i, rest) ∧
      step s = exec i t) := by
  unfold step
  cases hs : s.status with
  | halted => exact .inl ⟨rfl, rfl⟩
  | faulted c i => exact .inr (.inl ⟨c, i, rfl, rfl⟩)
  | running =>
    cases hf : fetch s with
    | error t => exact .inr (.inr (.inl ⟨rfl, t, rfl, rfl⟩))
    | ok p =>
      obtain ⟨bytes, t⟩ := p
      cases hd : decode bytes with
      | error e => exact .inr (.inr (.inr (.inl ⟨rfl, bytes, t, e, rfl, hd, by simp [hd]⟩)))
      | ok q =>
        obtain ⟨i, rest⟩ := q
        exact .inr (.inr (.inr (.inr ⟨rfl, bytes, t, i, rest, rfl, hd, by simp [hd]⟩)))

end Sys2Proof.Machine
end

