-- ==== Sys2Proof/Tests/Slice0.lean ====
section
/-! SUPPORT. The model's own tests. Expected values come from the spec: the encodings of 30_encoding.md R56, the vectors V1 to
V106 and scenarios S1 to S8 of 95_test_vectors.md (named in each test), or the rule named. Then one witness for the
hypotheses of each obligation that has some. -/

namespace Sys2Proof.Tests

open Sys2Proof.Machine

/-! ## Helpers -/

/-- Reset with bytes placed at an address, `pc` there, and some registers set. -/
def start (addr : Nat) (bytes : List Byte) (set : List (Reg × Byte)) : State :=
  let s := set.foldl (fun s p => s.writeReg p.1 p.2) State.reset
  { s with pc := addr, mem := Memory.storeBytes [] addr bytes }

/-- What one step shows: `pc`, the status, and both latches, with the registers and flag beside. -/
structure Seen where
  pc : Nat
  status : Status
  regs : List Byte
  flE : Bool
  latches : Option Byte × Option Byte
  out : List Byte
  deriving DecidableEq, Repr

/-- What is seen of the state after one step, with the registers asked for. -/
def seen (s : State) (ask : List Reg) : Option Seen :=
  (nextState (step s)).map fun t => ⟨t.pc, t.status, ask.map t.readReg, t.flE, (t.mar, t.mdr), t.out⟩

/-- The cell at an address after one step. -/
def cellAfter (s : State) (addr : Byte) : Option Byte := (nextState (step s)).map fun t => t.peek addr

/-! ## Well-formedness: an ill-formed term for the one check -/

theorem test_wf_refuses_xor_6 : (Instr.xor 6 1).wf = false := by decide
theorem test_wf_refuses_xor_7 : (Instr.xor 7 0).wf = false := by decide
theorem test_wf_accepts_xor_5 : (Instr.xor 5 1).wf = true := by decide

/-! ## Decoding: every constructor, by a word written out from R56 and R51 -/

theorem test_decode_no_operand :
    decode [0b00000001#8] = .ok (.hlt, []) ∧ decode [0b00010001#8] = .ok (.ret, []) := by decide

theorem test_decode_one_operand_stack_and_output :
    decode [0b01000101#8, 0b00000000#8] = .ok (.push 0, []) ∧ decode [0b01000110#8, 0b00000111#8] = .ok (.pop 7, []) ∧
    decode [0b01000111#8, 0b00000011#8] = .ok (.prn 3, []) ∧ decode [0b01101001#8, 0b00000110#8] = .ok (.not 6, []) := by
  decide

theorem test_decode_one_operand_control :
    decode [0b01010000#8, 0b00000001#8] = .ok (.call 1, []) ∧ decode [0b01010100#8, 0b00000010#8] = .ok (.jmp 2, []) ∧
    decode [0b01010101#8, 0b00000100#8] = .ok (.jeq 4, []) ∧ decode [0b01010110#8, 0b00000101#8] = .ok (.jne 5, []) := by
  decide

theorem test_decode_two_operands_move_and_arithmetic :
    decode [0b10000010#8, 0b00000001#8, 0b11111111#8] = .ok (.ldi 1 255#8, []) ∧
    decode [0b10000100#8, 0b00000001#8, 0b00000010#8] = .ok (.st 1 2, []) ∧
    decode [0b10100000#8, 0b00000001#8, 0b00000010#8] = .ok (.add 1 2, []) ∧
    decode [0b10100001#8, 0b00000001#8, 0b11001000#8] = .ok (.addi 1 200#8, []) ∧
    decode [0b10100010#8, 0b00000001#8, 0b00000010#8] = .ok (.mul 1 2, []) ∧
    decode [0b10100100#8, 0b00000001#8, 0b00000010#8] = .ok (.mod 1 2, []) := by decide

theorem test_decode_two_operands_logic :
    decode [0b10100111#8, 0b00000001#8, 0b00000010#8] = .ok (.cmp 1 2, []) ∧
    decode [0b10101000#8, 0b00000001#8, 0b00000010#8] = .ok (.and 1 2, []) ∧
    decode [0b10101010#8, 0b00000001#8, 0b00000010#8] = .ok (.or 1 2, []) ∧
    decode [0b10101011#8, 0b00000001#8, 0b00000010#8] = .ok (.xor 1 2, []) ∧
    decode [0b10101100#8, 0b00000001#8, 0b00000010#8] = .ok (.shl 1 2, []) ∧
    decode [0b10101101#8, 0b00000001#8, 0b00000010#8] = .ok (.shr 1 2, []) := by decide

/-- The order of R157: bytes missing, then no such opcode, then operand a, operand b, and XOR's scratch index. -/
theorem test_decode_refuses_by_name :
    decode [] = .error (.truncated 0) ∧ decode [0xA3#8, 0#8] = .error (.truncated 2) ∧
    decode [0xA3#8, 0#8, 1#8] = .error (.unsupportedOpcode 0xA3#8) ∧
    decode [0xA0#8, 8#8, 9#8] = .error (.invalidRegisterIndex 8) ∧
    decode [0xA0#8, 0#8, 9#8] = .error (.invalidRegisterIndex 9) ∧
    decode [0xAB#8, 7#8, 1#8] = .error (.invalidRegisterIndex 9) := by decide

/-- An opcode-table word is numbered with the first byte in bits 7 to 0. -/
theorem test_decode_table_word :
    decodeTableWord 24 0x0201A0 = some (.add 1 2) ∧ decodeTableWord 8 0xA0 = some (.add 0 0) ∧
    decodeTableWord 8 0x01 = some .hlt := by decide

/-- A placed word runs as the first instruction after reset. -/
theorem test_placed_word_runs : seen (State.reset.withFetchWord 16 0x0169) [1] =
    some ⟨2, .running, [0xFF#8], false, (some 1#8, some 1#8), []⟩ := by decide

/-! ## Arithmetic, logic, shift, compare (95_test_vectors.md L2.1) -/

theorem test_add_wraps_V1 : seen (start 0 [0xA0#8, 0#8, 1#8] [(0, 0xC8#8), (1, 0x64#8)]) [0, 1] =
    some ⟨3, .running, [0x2C#8, 0x64#8], false, (some 2#8, some 1#8), []⟩ := by decide
theorem test_add_same_register_V2 : seen (start 0 [0xA0#8, 0#8, 0#8] [(0, 0x90#8)]) [0] =
    some ⟨3, .running, [0x20#8], false, (some 2#8, some 0#8), []⟩ := by decide
theorem test_addi_wraps_V4 : seen (start 0 [0xA1#8, 0#8, 0x0A#8] [(0, 0xFA#8)]) [0] =
    some ⟨3, .running, [0x04#8], false, (some 2#8, some 0x0A#8), []⟩ := by decide
theorem test_addi_large_immediate_V98 : seen (start 0 [0xA1#8, 0#8, 0xC8#8] [(0, 1#8)]) [0] =
    some ⟨3, .running, [0xC9#8], false, (some 2#8, some 0xC8#8), []⟩ := by decide
theorem test_mul_keeps_low_byte_V8 : seen (start 0 [0xA2#8, 0#8, 1#8] [(0, 0xFF#8), (1, 0xFF#8)]) [0, 1] =
    some ⟨3, .running, [0x01#8, 0xFF#8], false, (some 2#8, some 1#8), []⟩ := by decide
theorem test_mod_V10 : seen (start 0 [0xA4#8, 0#8, 1#8] [(0, 0x11#8), (1, 5#8)]) [0, 1] =
    some ⟨3, .running, [2#8, 5#8], false, (some 2#8, some 1#8), []⟩ := by decide
theorem test_mod_by_zero_V12 : seen (start 0 [0xA4#8, 0#8, 1#8] [(0, 0x11#8), (1, 0#8)]) [0, 1] =
    some ⟨3, .faulted .divideByZero 1, [0x11#8, 0#8], false, (some 2#8, some 1#8), []⟩ := by decide
theorem test_and_V15 : seen (start 0 [0xA8#8, 0#8, 1#8] [(0, 0xF0#8), (1, 0x3C#8)]) [0] =
    some ⟨3, .running, [0x30#8], false, (some 2#8, some 1#8), []⟩ := by decide
theorem test_or_V16 : seen (start 0 [0xAA#8, 0#8, 1#8] [(0, 0xF0#8), (1, 0x3C#8)]) [0] =
    some ⟨3, .running, [0xFC#8], false, (some 2#8, some 1#8), []⟩ := by decide
theorem test_not_V17 : seen (start 0 [0x69#8, 0#8] [(0, 0x0F#8)]) [0] =
    some ⟨2, .running, [0xF0#8], false, (some 1#8, some 0#8), []⟩ := by decide
theorem test_shl_V19 : seen (start 0 [0xAC#8, 0#8, 1#8] [(0, 0x81#8), (1, 1#8)]) [0] =
    some ⟨3, .running, [0x02#8], false, (some 2#8, some 1#8), []⟩ := by decide
theorem test_shl_amount_not_masked_V22 : seen (start 0 [0xAC#8, 0#8, 1#8] [(0, 0xFF#8), (1, 0xFF#8)]) [0] =
    some ⟨3, .running, [0x00#8], false, (some 2#8, some 1#8), []⟩ := by decide
theorem test_shr_logical_V25 : seen (start 0 [0xAD#8, 0#8, 1#8] [(0, 0x81#8), (1, 1#8)]) [0] =
    some ⟨3, .running, [0x40#8], false, (some 2#8, some 1#8), []⟩ := by decide
theorem test_shr_amount_not_masked_V28 : seen (start 0 [0xAD#8, 0#8, 1#8] [(0, 0xFF#8), (1, 9#8)]) [0] =
    some ⟨3, .running, [0x00#8], false, (some 2#8, some 1#8), []⟩ := by decide
theorem test_cmp_equal_V29 : seen (start 0 [0xA7#8, 0#8, 1#8] [(0, 5#8), (1, 5#8)]) [0, 1] =
    some ⟨3, .running, [5#8, 5#8], true, (some 2#8, some 1#8), []⟩ := by decide
theorem test_cmp_clears_V32 : seen ((start 0 [0xA7#8, 0#8, 1#8] [(0, 0x80#8), (1, 0x7F#8)]).setFlE true) [] =
    some ⟨3, .running, [], false, (some 2#8, some 1#8), []⟩ := by decide

/-! ## Move, stack, output, halt (L2.2) -/

theorem test_st_V40 : seen (start 0 [0x84#8, 0#8, 1#8] [(0, 1#8), (1, 0x7E#8)]) [0, 1] =
    some ⟨3, .running, [0x7E#8, 0x7E#8], false, (some 2#8, some 1#8), []⟩ := by decide
theorem test_ldi_V44 : seen (start 0 [0x82#8, 7#8, 0x80#8] []) [7] =
    some ⟨3, .running, [0x80#8], false, (some 2#8, some 0x80#8), []⟩ := by decide
theorem test_push_r7_V46 : seen (start 0 [0x45#8, 7#8] []) [7] =
    some ⟨2, .running, [0xF3#8], false, (some 0xF3#8, some 0xF3#8), []⟩ ∧
    cellAfter (start 0 [0x45#8, 7#8] []) 0xF3#8 = some 0xF3#8 := by decide
theorem test_push_wraps_V47 : seen (start 0 [0x45#8, 0#8] [(0, 0x11#8), (7, 0#8)]) [7] =
    some ⟨2, .running, [0xFF#8], false, (some 0xFF#8, some 0x11#8), []⟩ ∧
    cellAfter (start 0 [0x45#8, 0#8] [(0, 0x11#8), (7, 0#8)]) 0xFF#8 = some 0x11#8 := by decide
theorem test_pop_V50 : seen ((start 0 [0x46#8, 0#8] [(7, 0xFF#8)]).memWrite 0xFF#8 0x66#8) [0, 7] =
    some ⟨2, .running, [0x66#8, 0#8], false, (some 0xFF#8, some 0x66#8), []⟩ := by decide
theorem test_pop_r7_V49 : seen ((start 0 [0x46#8, 7#8] []).memWrite 0xF4#8 0x5A#8) [7] =
    some ⟨2, .running, [0x5B#8], false, (some 0xF4#8, some 0x5A#8), []⟩ := by decide
theorem test_prn_V51 : seen (start 0 [0x47#8, 0#8] [(0, 0xC8#8)]) [0] =
    some ⟨2, .running, [0xC8#8], false, (some 1#8, some 0#8), [200#8]⟩ := by decide
theorem test_prn_at_top_V99 : seen (start 0xFE [0x47#8, 0#8] []) [] =
    some ⟨256, .running, [], false, (some 0xFF#8, some 0#8), [0#8]⟩ := by decide
theorem test_hlt_at_top_V103 : seen (start 0xFF [0x01#8] []) [] =
    some ⟨0xFF, .halted, [], false, (some 0xFF#8, some 1#8), []⟩ := by decide

/-! ## Control flow and XOR (L2.3) -/

theorem test_jmp_V61 : seen (start 0 [0x54#8, 7#8] []) [7] =
    some ⟨0xF4, .running, [0xF4#8], false, (some 1#8, some 7#8), []⟩ := by decide
theorem test_jeq_taken_V62 : seen ((start 0 [0x55#8, 3#8] [(3, 0x40#8)]).setFlE true) [] =
    some ⟨0x40, .running, [], true, (some 1#8, some 3#8), []⟩ := by decide
theorem test_jeq_not_taken_V63 : seen (start 0 [0x55#8, 3#8] [(3, 0x40#8)]) [] =
    some ⟨2, .running, [], false, (some 1#8, some 3#8), []⟩ := by decide
theorem test_jne_not_taken_V64 : seen ((start 0 [0x56#8, 3#8] [(3, 0x40#8)]).setFlE true) [] =
    some ⟨2, .running, [], true, (some 1#8, some 3#8), []⟩ := by decide
theorem test_jne_taken_V65 : seen (start 0 [0x56#8, 3#8] [(3, 0x40#8)]) [] =
    some ⟨0x40, .running, [], false, (some 1#8, some 3#8), []⟩ := by decide
theorem test_call_V73 : seen (start 0x20 [0x50#8, 1#8] [(1, 0x30#8)]) [7] =
    some ⟨0x30, .running, [0xF3#8], false, (some 0xF3#8, some 0x22#8), []⟩ := by decide
theorem test_call_r7_via_r7_V69 : seen { start 0 [0x50#8, 7#8] [] with callLink := .viaR7 } [7] =
    some ⟨1, .running, [1#8], false, (some 1#8, some 1#8), []⟩ := by decide
theorem test_ret_V72 : seen ((start 0 [0x11#8] [(7, 0xFF#8)]).memWrite 0xFF#8 0x10#8) [7] =
    some ⟨0x10, .running, [0#8], false, (some 0xFF#8, some 0x10#8), []⟩ := by decide
theorem test_ret_via_r7_V71 :
    seen { (start 0 [0x11#8] []).memWrite 0xF4#8 0x22#8 with callLink := .viaR7 } [7] =
    some ⟨0x23, .running, [0x23#8], false, (some 0xF4#8, some 0x22#8), []⟩ := by decide
theorem test_xor_scratch_is_b_V84 : seen (start 0 [0xAB#8, 0#8, 2#8] [(0, 0x5A#8), (2, 0x0F#8)]) [0, 2] =
    some ⟨3, .running, [0#8, 0xA5#8], false, (some 2#8, some 2#8), []⟩ := by decide
theorem test_xor_scratch_is_sp_V85 : seen (start 0 [0xAB#8, 5#8, 1#8] [(1, 0x34#8), (5, 0x12#8)]) [5, 7, 1] =
    some ⟨3, .running, [0x26#8, 0xEF#8, 0x34#8], false, (some 2#8, some 1#8), []⟩ := by decide

/-! ## Faults and the top of memory (L2.4) -/

theorem test_fault_unsupported_V91 : seen (start 0 [0xA3#8, 0#8, 1#8] []) [] =
    some ⟨0, .faulted .unsupportedOpcode 0xA3, [], false, (some 2#8, some 1#8), []⟩ := by decide
theorem test_fault_high_bits_11_V93 : seen (start 0 [0xFF#8] []) [] =
    some ⟨0, .faulted .unsupportedOpcode 0xFF, [], false, (some 0#8, some 0xFF#8), []⟩ := by decide
theorem test_fault_index_a_before_b_V96 : seen (start 0 [0xA0#8, 8#8, 9#8] []) [] =
    some ⟨0, .faulted .invalidRegisterIndex 8, [], false, (some 2#8, some 9#8), []⟩ := by decide
theorem test_fault_jeq_index_checked_V97 : seen (start 0 [0x55#8, 8#8] []) [] =
    some ⟨0, .faulted .invalidRegisterIndex 8, [], false, (some 1#8, some 8#8), []⟩ := by decide
theorem test_fault_xor_scratch_V87 : seen (start 0 [0xAB#8, 7#8, 1#8] [(1, 0x34#8)]) [7] =
    some ⟨0, .faulted .invalidRegisterIndex 9, [0xF4#8], false, (some 2#8, some 1#8), []⟩ := by decide
theorem test_fault_operand_range_V101 : seen (start 0xFF [0x82#8] []) [] =
    some ⟨0xFF, .faulted .addressOutOfRange 257, [], false, (some 0xFF#8, some 0x82#8), []⟩ := by decide
theorem test_fault_range_before_lookup_V105 : seen (start 0xFE [0xA3#8, 0#8] []) [] =
    some ⟨0xFE, .faulted .addressOutOfRange 256, [], false, (some 0xFE#8, some 0xA3#8), []⟩ := by decide
theorem test_fault_call_at_top_V102 : seen (start 0xFE [0x50#8, 1#8] [(1, 0x30#8)]) [7] =
    some ⟨0xFE, .faulted .addressOutOfRange 256, [0xF4#8], false, (some 0xFF#8, some 1#8), []⟩ := by decide
theorem test_fault_pc_256_P9 : seen (start 256 [] []) [] =
    some ⟨256, .faulted .addressOutOfRange 256, [], false, (none, none), []⟩ := by decide

/-! ## Witnesses: for each obligation with hypotheses, states and operands that meet all of them -/

theorem witness_DecodeOfEncode : ∃ i : Instr, i.wf = true ∧ i = .xor 5 7 := ⟨_, by decide, rfl⟩
theorem witness_DecodedBytesAreTheEncoding : ∃ bs rest i, decode bs = .ok (i, rest) ∧ rest = [9#8] :=
  ⟨[0x45#8, 7#8, 9#8], _, _, rfl, rfl⟩
theorem witness_OperandCountFromTheTwoHighBits :
    (0x80#8).toNat / 64 = 2 ∧ (0xBF#8).toNat / 64 = 2 ∧ (0x40#8).toNat / 64 = 1 ∧ (0x7F#8).toNat / 64 = 1 ∧
    (0x3F#8).toNat / 64 = 0 ∧ (0xC0#8).toNat / 64 = 3 := by decide
theorem witness_ModResult : ∃ (b : Reg) (s : State), s.readReg b ≠ 0#8 := ⟨7, .reset, by decide⟩
theorem witness_ModByZeroFaults : ∃ (b : Reg) (s : State), s.readReg b = 0#8 := ⟨0, .reset, by decide⟩
theorem witness_memory_is_canonical : ∃ s : State, s.mem.wf = true ∧ s.mem ≠ [] :=
  ⟨State.reset.memWrite 0xFF#8 1#8, by decide, by decide⟩
theorem witness_PopLoadsThenIncrements : ∃ a b : Reg, a ≠ 7 ∧ b = 7 := ⟨6, 7, by decide, rfl⟩
theorem witness_TwoPushesTwoPopsExchange : ∃ (a b : Reg) (s : State), s.mem.wf = true ∧ a ≠ 7 ∧ b ≠ 7 :=
  ⟨0, 1, .reset, by decide, by decide, by decide⟩
theorem witness_CallPushesReturnAddress : ∃ s : State, s.callLink = .stack ∧ s.pc + 2 ≤ 255 ∧ s.mem.wf = true ∧ s.pc = 253 :=
  ⟨State.reset.setPc 253, by decide, by decide, by decide, rfl⟩
theorem witness_RetPopsIntoPc : ∃ s : State, s.callLink = .stack := ⟨.reset, rfl⟩
theorem witness_CallViaR7OverwritesItsOperand :
    ∃ s : State, s.callLink = .viaR7 ∧ s.pc + 2 ≤ 255 ∧ s.mem.wf = true ∧ s.pc = 253 :=
  ⟨{ State.reset with callLink := .viaR7, pc := 253 }, by decide, by decide, by decide, rfl⟩
theorem witness_RetViaR7JumpsToIncrementedByte : ∃ s : State, s.callLink = .viaR7 := ⟨.boot [] .viaR7, rfl⟩
theorem witness_CallThenRetReturns : ∃ (s t u : State), s.pc + 2 ≤ 255 ∧ s.mem.wf = true ∧ exec (.call 1) s = .next t ∧
    u.readReg 7 = t.readReg 7 ∧ u.peek (t.readReg 7) = t.peek (t.readReg 7) ∧ u.callLink = s.callLink :=
  ⟨.reset, _, _, by decide, by decide, rfl, rfl, rfl, rfl⟩
theorem witness_CallAtTheTopFaults : ∃ s : State, 255 < s.pc + 2 ∧ s.pc = 254 := ⟨State.reset.setPc 254, by decide, rfl⟩
theorem witness_XorCompositeIsXor :
    ∃ a b c scratch : Reg, scratch.val = a.val + 2 ∧ b ≠ scratch ∧ c = scratch ∧ a = 5 :=
  ⟨5, 5, 7, 7, by decide, by decide, rfl, rfl⟩
theorem witness_XorWithoutScratchFaults : ∃ a b : Reg, 7 < a.val + 2 ∧ 7 < b.val + 2 ∧ a ≠ b :=
  ⟨6, 7, by decide, by decide, by decide⟩
theorem witness_StepRunsTheDecodedInstruction : ∃ (s : State) (i : Instr), s.status = .running ∧
    s.pc + operandCount (s.byteAt s.pc) ≤ 255 ∧ decode (s.bytesAt s.pc (operandCount (s.byteAt s.pc) + 1)) = .ok (i, []) ∧
    s.pc = 253 :=
  ⟨start 253 [0xA0#8, 1#8, 2#8] [], .add 1 2, by decide, by decide, by decide, rfl⟩
theorem witness_StepExistsIffRunning : ∃ s t u : State, s.status = .running ∧ t.status = .halted ∧
    u.status = .faulted .divideByZero 0 :=
  ⟨.reset, State.reset.setStatus .halted, State.reset.raise .divideByZero 0, rfl, rfl, rfl⟩
theorem witness_StepKeepsInvariant : ∃ s t : State, Inv s ∧ step s = .next t ∧ t.pc = 256 :=
  ⟨start 254 [0x47#8, 0#8] [], _, ⟨by decide, by decide, trivial, trivial⟩, rfl, by decide⟩
theorem witness_StepRaisesTheFirstFault : ∃ s t : State, s.status = .running ∧ firstFault s = none ∧
    t.status = .running ∧ firstFault t = some (.divideByZero, 1) :=
  ⟨start 0 [0xA4#8, 0#8, 7#8] [], start 0 [0xA4#8, 0#8, 1#8] [], by decide, by decide, by decide, by decide⟩
theorem witness_FaultsArePrecise : ∃ s t : State, s.status = .running ∧ step s = .next t ∧
    t.status = .faulted .divideByZero 1 :=
  ⟨start 0 [0xA4#8, 0#8, 1#8] [], _, by decide, rfl, by decide⟩
theorem witness_UndefinedByteFaults : ∃ (s : State) (ir : Byte), s.status = .running ∧ s.byteAt s.pc = ir ∧
    s.pc + operandCount ir ≤ 255 ∧ (∀ op : Opcode, op.byte ≠ ir) ∧ s.pc = 253 :=
  ⟨start 253 [0xA3#8] [], 0xA3#8, by decide, by decide, by decide, fun op => by cases op <;> decide, rfl⟩
theorem witness_FetchAboveMemoryFaults : ∃ s t u : State, s.status = .running ∧ s.pc = 256 ∧
    t.status = .running ∧ t.pc ≤ 255 ∧ 255 < t.pc + operandCount (t.byteAt t.pc) ∧
    u.status = .running ∧ u.pc = 255 ∧ 255 < u.pc + operandCount (u.byteAt u.pc) :=
  ⟨start 256 [] [], start 254 [0x82#8] [], start 255 [0x47#8] [], by decide, rfl, by decide, by decide, by decide, by decide,
    rfl, by decide⟩
theorem witness_RegisterIndexAboveSevenFaults : ∃ (s t : State) (op : Opcode), s.status = .running ∧ t.status = .running ∧
    s.byteAt s.pc = op.byte ∧ t.byteAt t.pc = op.byte ∧ s.pc + operandCount op.byte ≤ 255 ∧ s.pc = 253 ∧
    t.pc + operandCount op.byte ≤ 255 ∧ 1 ≤ operandCount op.byte ∧ (s.byteAt (s.pc + 1)).toNat = 8 ∧
    secondIsRegister op = true ∧ (t.byteAt (t.pc + 1)).toNat = 7 ∧ (t.byteAt (t.pc + 2)).toNat = 8 :=
  ⟨start 253 [0xA0#8, 8#8, 0#8] [], start 0 [0xA0#8, 7#8, 8#8] [], .add, by decide⟩
theorem witness_AluPathAdvancesByWidth : ∃ i j : Instr, isControlFlow i = false ∧ isControlFlow j = false ∧ i = .hlt ∧ j = .mod 0 0 :=
  ⟨_, _, by decide, by decide, rfl, rfl⟩
theorem witness_OnlyCmpWritesTheFlag : ∃ (i : Instr) (s t : State), exec i s = .next t ∧ t.flE ≠ s.flE :=
  ⟨.cmp 0 0, .reset, _, rfl, by decide⟩
theorem witness_OnlyPushAndCallWriteMemory :
    ∃ (i : Instr) (s t : State) (addr : Byte), exec i s = .next t ∧ t.peek addr ≠ s.peek addr :=
  ⟨.push 7, .reset, _, 0xF3#8, rfl, by decide⟩
theorem witness_step_answers_next : ∃ s t : State, step s = .next t ∧ EndedWell t := ⟨start 0 [0x01#8] [], _, rfl, rfl⟩
theorem witness_OnlyPrnEmits : ∃ s t : State, step s = .next t ∧ t.out ≠ s.out :=
  ⟨start 0 [0x47#8, 7#8] [], _, rfl, by decide⟩
theorem witness_RunsKeepCallLink : ∃ s t : State, Reaches s t ∧ s.pc ≠ t.pc :=
  ⟨start 0 [0x54#8, 7#8] [], _, .more _ _ .start rfl, by decide⟩
theorem witness_LatchesAndOutputAreNeverRead : ∃ s u : State, forgetObserved s = forgetObserved u ∧ s ≠ u :=
  ⟨.reset, (State.reset.latch 1#8 2#8).emit 3#8, by decide, by decide⟩
theorem witness_LatchesEndOnTheLastByteFetched : ∃ s t : State, s.status = .running ∧ step s = .next t ∧
    firstFault s = none ∧ s.byteAt s.pc ∉ [0x45#8, 0x46#8, 0x50#8, 0x11#8] :=
  ⟨start 253 [0xA0#8, 1#8, 2#8] [], _, by decide, rfl, by decide, by decide⟩
theorem witness_ImageIsTheInitialMemory : ∃ (image : List Byte) (k : Nat), k < image.length ∧ k ≤ 255 ∧ k = 255 :=
  ⟨List.replicate 256 0x47#8, 255, by rw [List.length_replicate]; omega, by omega, rfl⟩
theorem witness_registers_other_than_seven : ∃ r : Reg, r ≠ 7 := ⟨0, by decide⟩

end Sys2Proof.Tests
end

/-! # The family of 10_state.md

First the layer: an equation of the step for each status, the one inversion of a step that answers a next state, and the
one frame of all meanings. Then the statements. -/

namespace Sys2Proof.Machine

/-! ## The step, equation by equation -/

/-- The state in which a whole instruction has been fetched: the latches are on its last byte (R82). -/
def State.fetched (s : State) : State :=
  s.latch (BitVec.ofNat 8 (s.pc + operandCount (s.byteAt s.pc))) (s.byteAt (s.pc + operandCount (s.byteAt s.pc)))

/-- The bytes such a fetch reads. -/
def State.fetchedBytes (s : State) : List Byte := s.bytesAt s.pc (operandCount (s.byteAt s.pc) + 1)

/-- The step after the fetch (R79): the decoder's error is raised, or the instruction runs. -/
def runDecoded (d : Except DecodeError (Instr × List Byte)) (t : State) : Result :=
  match d with
  | .error e => .next (raiseDecodeError e t)
  | .ok (i, _) => exec i t

theorem step_of_halted {s : State} (h : s.status = .halted) : step s = .fault .stuckHalted := by
  rw [step, h]

theorem step_of_faulted {s : State} {c : Cause} {info : Nat} (h : s.status = .faulted c info) :
    step s = .fault (.stuckFaulted c info) := by
  rw [step, h]

/-- The step from Running (R79): one of the two faults of the fetch, or what the fetched bytes decode to. -/
theorem step_of_running {s : State} (h : s.status = .running) :
    step s =
      if 255 < s.pc then .next (s.raise .addressOutOfRange s.pc)
      else if 255 < s.pc + operandCount (s.byteAt s.pc) then
        .next ((s.latch (BitVec.ofNat 8 s.pc) (s.byteAt s.pc)).raise .addressOutOfRange
          (s.pc + operandCount (s.byteAt s.pc)))
      else runDecoded (decode s.fetchedBytes) s.fetched := by
  rw [step, h]
  rcases fetch_cases s with ⟨top, e⟩ | ⟨top, operands, e⟩ | ⟨fits, e⟩ <;> simp only [e]
  · rw [if_pos top]
  · rw [if_neg (by omega), if_pos operands]
  · rw [if_neg (by omega), if_neg (by omega)]
    rfl

/-- A fault raised at `s`, or at `s` with the latches moved by the fetch, changes nothing else (R155, R163). -/
theorem onlyStatusAndLatchesChange_raise {s u : State} (h : u = s ∨ ∃ addr v, u = s.latch addr v)
    (cause : Cause) (info : Nat) : OnlyStatusAndLatchesChange s (u.raise cause info) := by
  rcases h with rfl | ⟨addr, v, rfl⟩ <;> exact ⟨rfl, fun _ _ => rfl, rfl, fun _ => rfl, rfl, rfl⟩

/-- A step that answers a next state has raised a fault before any instruction ran, or is the meaning of the instruction the
bytes at `pc` decode to (R79). -/
theorem step_next_cases {s t : State} (h : step s = .next t) :
    OnlyStatusAndLatchesChange s t ∨
      ∃ i rest, decode s.fetchedBytes = .ok (i, rest) ∧ exec i s.fetched = .next t := by
  cases hs : s.status with
  | halted => simp [step_of_halted hs] at h
  | faulted c info => simp [step_of_faulted hs] at h
  | running =>
    rw [step_of_running hs] at h
    split at h
    · cases h
      exact .inl (onlyStatusAndLatchesChange_raise (.inl rfl) _ _)
    split at h
    · cases h
      exact .inl (onlyStatusAndLatchesChange_raise (.inr ⟨_, _, rfl⟩) _ _)
    cases hd : decode s.fetchedBytes with
    | error e =>
      obtain ⟨cause, info, raised, -⟩ := raiseDecodeError_cases e s.fetched
      rw [hd, runDecoded, raised] at h
      cases h
      exact .inl (onlyStatusAndLatchesChange_raise (.inr ⟨_, _, rfl⟩) _ _)
    | ok p =>
      rw [hd] at h
      exact .inr ⟨p.1, p.2, rfl, h⟩

/-- The bytes that decode to an instruction in a step are the instruction's own (R50, R56). -/
theorem fetchedBytes_eq_encode {s : State} {i : Instr} {rest : List Byte} (h : decode s.fetchedBytes = .ok (i, rest)) :
    s.fetchedBytes = encode i := by
  rw [State.fetchedBytes, bytesAt_cons] at h ⊢
  obtain ⟨-, row, read, -⟩ := decode_ok h
  obtain ⟨-, -, operands⟩ := decodeOperands_ok read
  rw [encode, operands, byte_of_lookup row]
  have count : operandCount (s.byteAt s.pc) ≤ 2 := by
    unfold operandCount
    split_ifs <;> omega
  refine congrArg _ ?_
  interval_cases operandCount (s.byteAt s.pc) <;> rfl

/-! ## The frame of all meanings -/

/-- What the meanings of all instructions have in common. -/
structure ExecFrame (i : Instr) (s t : State) : Prop where
  /-- The parameter `CALL_LINK` stays (R23). -/
  callLink : t.callLink = s.callLink
  /-- Only CMP may write the equal flag (R16). -/
  flE : t.flE = s.flE ∨ ∃ a b, i = .cmp a b
  /-- Only PRN appends to the output, the register it names (R20, R114). -/
  out : t.out = s.out ∨ ∃ a, i = .prn a ∧ t.out = s.out ++ [s.readReg a]

/-- A meaning that leaves all three fields alone. -/
theorem ExecFrame.of_same (i : Instr) {s t : State} (link : t.callLink = s.callLink) (flag : t.flE = s.flE)
    (out : t.out = s.out) : ExecFrame i s t := ⟨link, .inl flag, .inl out⟩

/-- Every instruction answers a next state, within the frame. -/
theorem exec_frame (i : Instr) (s : State) : ∃ t, exec i s = .next t ∧ ExecFrame i s t := by
  cases i
  case cmp a b => exact ⟨_, rfl, rfl, .inr ⟨a, b, rfl⟩, .inl rfl⟩
  case prn a => exact ⟨_, rfl, rfl, .inl rfl, .inr ⟨a, rfl, rfl⟩⟩
  case call a =>
    simp only [exec, execCall]
    split
    · exact ⟨_, rfl, .of_same _ rfl rfl rfl⟩
    · split <;> exact ⟨_, rfl, .of_same _ rfl rfl rfl⟩
  case mod | ret | jeq | jne | xor =>
    simp only [exec, execMod, execRet, execJeq, execJne, execXor]
    split <;> exact ⟨_, rfl, .of_same _ rfl rfl rfl⟩
  all_goals exact ⟨_, rfl, .of_same _ rfl rfl rfl⟩

theorem execFrame_of_exec {i : Instr} {s t : State} (h : exec i s = .next t) : ExecFrame i s t := by
  obtain ⟨u, answer, frame⟩ := exec_frame i s
  cases answer.symm.trans h
  exact frame

/-! ## Nothing reads the latches or the output -/

@[simp] theorem forgetObserved_callLink (s : State) : (forgetObserved s).callLink = s.callLink := rfl

/-- A branch on what both states agree on is seen alike when its two sides are. -/
theorem forgetOutcome_ite {c : Prop} [Decidable c] {x x' y y' : Result} (hx : forgetOutcome x = forgetOutcome x')
    (hy : forgetOutcome y = forgetOutcome y') :
    forgetOutcome (if c then x else y) = forgetOutcome (if c then x' else y') := by
  split_ifs
  · exact hx
  · exact hy

/-- Every meaning does the same, seen without the latches and the output, from a state without them (R18, R20). -/
theorem exec_forgetObserved (i : Instr) (s : State) :
    forgetOutcome (exec i (forgetObserved s)) = forgetOutcome (exec i s) := by
  cases i
  case mod | jeq | jne => exact forgetOutcome_ite rfl rfl
  case call a =>
    refine forgetOutcome_ite rfl ?_
    simp only [forgetObserved_callLink]
    cases s.callLink <;> rfl
  case ret =>
    simp only [exec, execRet, forgetObserved_callLink]
    cases s.callLink <;> rfl
  case xor a b =>
    simp only [exec, execXor]
    cases scratchReg a <;> rfl
  all_goals rfl

theorem raiseDecodeError_forgetObserved (e : DecodeError) (s : State) :
    raiseDecodeError e (forgetObserved s) = forgetObserved (raiseDecodeError e s) := by
  cases e <;> rfl

/-- The step after the fetch sees of two states only what is no latch and no output. -/
theorem runDecoded_congr (d : Except DecodeError (Instr × List Byte)) {s u : State}
    (h : forgetObserved s = forgetObserved u) : forgetOutcome (runDecoded d s) = forgetOutcome (runDecoded d u) := by
  cases d with
  | error e => simp only [runDecoded, forgetOutcome, ← raiseDecodeError_forgetObserved, h]
  | ok p => rw [runDecoded, runDecoded, ← exec_forgetObserved, h, exec_forgetObserved]

/-- A step does the same, seen without the latches and the output, from a state without them (R18, R20). -/
theorem step_forgetObserved (s : State) : forgetOutcome (step (forgetObserved s)) = forgetOutcome (step s) := by
  cases hs : s.status with
  | halted => rw [step_of_halted hs, step_of_halted (by exact hs)]
  | faulted c info => rw [step_of_faulted hs, step_of_faulted (by exact hs)]
  | running =>
    rw [step_of_running hs, step_of_running (by exact hs)]
    exact forgetOutcome_ite rfl (forgetOutcome_ite rfl (runDecoded_congr _ rfl))

/-! ## The statements -/

/-- Settles O52: both steps are, but for the latches and the output, the step of the common state without them. -/
theorem latchesAndOutputAreNeverRead : Obligations.LatchesAndOutputAreNeverRead := by
  intro s u h
  rw [← step_forgetObserved s, h, step_forgetObserved u]

/-- Settles O46, from the frame of all meanings. -/
theorem onlyCmpWritesTheFlag : Obligations.OnlyCmpWritesTheFlag :=
  fun _ _ _ answer changed => (execFrame_of_exec answer).flE.resolve_left changed

/-- Settles O48: a fault emits nothing, an instruction emits within the frame, and a PRN that ran is the bytes at `pc`. -/
theorem onlyPrnEmits : Obligations.OnlyPrnEmits := by
  intro s t h
  rcases step_next_cases h with ⟨-, -, -, -, out, -⟩ | ⟨i, rest, decoded, answer⟩
  · exact .inl out
  rcases (execFrame_of_exec answer).out with out | ⟨a, rfl, out⟩
  · exact .inl out
  have bytes : s.fetchedBytes = [0x47#8, byteOfReg a] := fetchedBytes_eq_encode decoded
  rw [State.fetchedBytes, bytesAt_cons, List.cons.injEq] at bytes
  obtain ⟨opcode, operand⟩ := bytes
  rw [opcode, show operandCount 0x47#8 = 1 by decide, bytesAt_cons, List.cons.injEq] at operand
  exact .inr ⟨opcode, a, by rw [operand.1, toNat_byteOfReg], out⟩

/-- R23: one step keeps `CALL_LINK`. -/
theorem step_callLink {s t : State} (h : step s = .next t) : t.callLink = s.callLink := by
  rcases step_next_cases h with ⟨-, -, -, -, -, link⟩ | ⟨i, rest, -, answer⟩
  · exact link
  · exact (execFrame_of_exec answer).callLink

/-- Settles O51, by induction on the run. -/
theorem runsKeepCallLink : Obligations.RunsKeepCallLink := by
  intro s t run
  induction run with
  | start => rfl
  | more t u _ now ih => exact (step_callLink now).trans ih

/-- Settles O56, from the register file's read after write. -/
theorem registersHoldWhatIsWritten : Obligations.RegistersHoldWhatIsWritten :=
  fun s r v => ⟨by rw [readReg_writeReg, if_pos rfl], sameRegs_writeReg s r v⟩

end Sys2Proof.Machine

/-! # The family of 20_memory.md

First the one frame of all meanings on memory, from what a push does to a memory of any form. Then the statements. -/

namespace Sys2Proof.Machine

/-! ## What the meanings do to memory -/

theorem sp_pushWith (v : State → Byte) (s : State) : (pushWith v s).sp = s.sp - 1#8 := by
  simp [pushWith_eq, sp_def]

/-- A push changes no cell but the one the pointer then names, whatever form the memory has (R31, R33). -/
theorem sameMemExcept_pushWith (v : State → Byte) (s : State) : SameMemExcept (pushWith v s).sp s (pushWith v s) := by
  intro addr ne
  rw [sp_pushWith] at ne
  rw [pushWith_eq, peek_memWrite_other _ _ ne, peek_writeReg]

/-- CALL jumps after its push, so the cell it may change is its push's (R131). -/
theorem sameMemExcept_callStack (a : Reg) (s : State) : SameMemExcept ((callStack a s).readReg 7) s (callStack a s) :=
  sameMemExcept_pushWith (fun _ => BitVec.ofNat 8 (s.pc + 2)) s

/-- The literal reading of CALL pushes from the register file with the return address in `x[7]` (R137). -/
theorem sameMemExcept_callViaR7 (a : Reg) (s : State) : SameMemExcept ((callViaR7 a s).readReg 7) s (callViaR7 a s) :=
  sameMemExcept_pushWith (fun s1 => s1.readReg spReg) (s.writeReg spReg (BitVec.ofNat 8 (s.pc + 2)))

/-- What the meanings of all instructions have in common on memory: it stays as it was, or a PUSH or a CALL has stored at the
cell `x[7]` now names (R31). -/
def MemFrame (i : Instr) (s t : State) : Prop :=
  SameMem s t ∨ (∃ a, i = .push a ∨ i = .call a) ∧ SameMemExcept (t.readReg 7) s t

/-- Every instruction answers a next state, within the frame. -/
theorem exec_memFrame (i : Instr) (s : State) : ∃ t, exec i s = .next t ∧ MemFrame i s t := by
  cases i
  case push a => exact ⟨_, rfl, .inr ⟨⟨a, .inl rfl⟩, sameMemExcept_pushWith _ (s.advance 2)⟩⟩
  case call a =>
    simp only [exec, execCall]
    split
    · exact ⟨_, rfl, .inl fun _ => rfl⟩
    · split
      next => exact ⟨_, rfl, .inr ⟨⟨a, .inr rfl⟩, sameMemExcept_callStack a s⟩⟩
      next => exact ⟨_, rfl, .inr ⟨⟨a, .inr rfl⟩, sameMemExcept_callViaR7 a s⟩⟩
  case mod | ret | jeq | jne | xor =>
    simp only [exec, execMod, execRet, execJeq, execJne, execXor]
    split <;> exact ⟨_, rfl, .inl fun _ => rfl⟩
  all_goals exact ⟨_, rfl, .inl fun _ => rfl⟩

theorem memFrame_of_exec {i : Instr} {s t : State} (h : exec i s = .next t) : MemFrame i s t := by
  obtain ⟨u, answer, frame⟩ := exec_memFrame i s
  cases answer.symm.trans h
  exact frame

/-! ## The statements -/

/-- Settles O47, from the frame of all meanings on memory. -/
theorem onlyPushAndCallWriteMemory : Obligations.OnlyPushAndCallWriteMemory := by
  intro i s t addr answer changed
  rcases memFrame_of_exec answer with same | ⟨pushes, others⟩
  · exact absurd (same addr) changed
  · exact ⟨not_imp_comm.mp (others addr) changed, pushes⟩

/-- Settles O55: the memory's laws for the cells and the form, and the equations of the store for the other fields. -/
theorem memWriteStoresOneCell : Obligations.MemWriteStoresOneCell := by
  intro s addr v canonical
  have stored : (s.memWrite addr v).peek addr = v := by rw [peek_memWrite canonical, if_pos rfl]
  have others : SameMemExcept addr s (s.memWrite addr v) := fun _ ne => peek_memWrite_other s v ne
  exact ⟨stored, others, ⟨rfl, rfl⟩, memWrite_wf canonical addr v, sameRegs_of_regs_eq (memWrite_regs ..) [],
    memWrite_flE .., ⟨rfl, rfl⟩, memWrite_out .., memWrite_pc ..⟩

/-- Settles O54: a read moves the latches only. -/
theorem memReadReturnsCellAndLatches : Obligations.MemReadReturnsCellAndLatches := by
  intro s addr
  rw [memRead_fst, memRead_snd]
  exact ⟨rfl, ⟨latch_mar .., latch_mdr ..⟩, sameMem_of_mem_eq (latch_mem ..), sameRegs_of_regs_eq (latch_regs ..) [],
    latch_flE .., ⟨latch_status .., latch_callLink ..⟩, latch_out .., latch_pc ..⟩

end Sys2Proof.Machine

/-! # The family of 30_encoding.md

The operand count as a number read off the byte, and the bytes of the rows among all byte values. Then the statements. -/

namespace Sys2Proof

/-! ## The two high bits -/

/-- R52 with the two high bits read as a number. -/
theorem operandCount_eq (ir : Byte) :
    operandCount ir = if ir.toNat / 64 = 2 then 2 else if ir.toNat / 64 = 1 then 1 else 0 := by
  have bits : (ir.extractLsb 7 6).toNat = ir.toNat / 64 := by
    have := ir.isLt
    simp only [BitVec.extractLsb_toNat, Nat.shiftRight_eq_div_pow]
    omega
  simp only [operandCount, ← BitVec.toNat_inj, bits]
  rfl

/-! ## The bytes that are in a row -/

/-- No two rows have the same byte (R56): the lookup tells them apart. -/
theorem byte_injective : Function.Injective Opcode.byte := by
  intro op op' same
  have found := lookup_byte op
  rw [same, lookup_byte] at found
  exact (Option.some.inj found).symm

/-- A byte is found in a row exactly when some row has it (R73). -/
theorem lookup_isNone_eq_false {ir : Byte} : (lookup ir).isNone = false ↔ ∃ op : Opcode, op.byte = ir := by
  rw [← Bool.not_eq_true, Option.isNone_iff_eq_none, lookup_eq_none]
  exact not_forall_not

/-- The bytes of the table's rows, as numbers. -/
def rowBytes : List Nat := Opcode.all.map fun op => op.byte.toNat

theorem length_rowBytes : rowBytes.length = 22 := rfl

theorem nodup_rowBytes : rowBytes.Nodup :=
  List.Nodup.map (fun _ _ same => byte_injective (BitVec.eq_of_toNat_eq same)) (by decide)

/-- A byte value is in a row exactly when it is a row's byte. -/
theorem mem_rowBytes {k : Nat} : k ∈ rowBytes ↔ k < 256 ∧ (lookup (BitVec.ofNat 8 k)).isNone = false := by
  simp only [rowBytes, List.mem_map, mem_all, true_and, lookup_isNone_eq_false]
  constructor
  · rintro ⟨op, rfl⟩
    exact ⟨op.byte.isLt, op, by simp⟩
  · rintro ⟨small, op, row⟩
    exact ⟨op, by rw [row, BitVec.toNat_ofNat, Nat.mod_eq_of_lt small]⟩

/-- The byte values in some row are the bytes of the rows, each once. -/
theorem legalBytes_perm :
    ((List.range 256).filter fun k => !(lookup (BitVec.ofNat 8 k)).isNone).Perm rowBytes := by
  rw [List.perm_ext_iff_of_nodup (List.nodup_range.filter _) nodup_rowBytes]
  intro k
  rw [mem_rowBytes, List.mem_filter, List.mem_range, Bool.not_eq_true']

/-! ## The statements -/

/-- Settles O4, from the two high bits read as a number. -/
theorem operandCountFromTheTwoHighBits : Obligations.OperandCountFromTheTwoHighBits := by
  intro ir
  rw [operandCount_eq]
  refine ⟨fun two => by rw [two]; rfl, fun one => by rw [one]; rfl, ?_⟩
  rintro (zero | three)
  · rw [zero]; rfl
  · rw [three]; rfl

/-- Settles O5: the widths from the rows' operand counts, and the illegal bytes as the 256 values but the 22 rows' bytes. -/
theorem widthsAndIllegalBytesOfTheTable : Obligations.WidthsAndIllegalBytesOfTheTable := by
  constructor
  · intro op
    rw [operandCount_byte]
    cases op <;> rfl
  · have all := List.length_eq_length_filter_add (l := List.range 256) fun k => (lookup (BitVec.ofNat 8 k)).isNone
    rw [List.length_range, legalBytes_perm.length_eq, length_rowBytes] at all
    omega

end Sys2Proof

/-! # The family of 40_decode_and_step.md

First which statuses a step leads from and to: the one status a meaning can end in, and the inversion of an answered step
with the fault of its fetch and decode as a status. Then the statements. -/

namespace Sys2Proof.Machine

/-! ## Where a step exists -/

/-- What the fetched bytes decode to always answers a next state: a fault raised, or a meaning (R155). -/
theorem runDecoded_next (d : Except DecodeError (Instr × List Byte)) (s : State) : ∃ t, runDecoded d s = .next t := by
  cases d with
  | error e => exact ⟨_, rfl⟩
  | ok p =>
    obtain ⟨t, answer, -⟩ := exec_frame p.1 s
    exact ⟨t, answer⟩

/-- A Running state has a step (R70). -/
theorem step_next_of_running {s : State} (h : s.status = .running) : ∃ t, step s = .next t := by
  rw [step_of_running h]
  split_ifs
  · exact ⟨_, rfl⟩
  · exact ⟨_, rfl⟩
  · exact runDecoded_next _ _

/-- Only a Running state has a step (R70, R80). -/
theorem running_of_step_next {s t : State} (h : step s = .next t) : s.status = .running := by
  cases hs : s.status with
  | running => rfl
  | halted => simp [step_of_halted hs] at h
  | faulted c info => simp [step_of_faulted hs] at h

/-! ## What the meanings do to the status -/

/-- What a meaning may do to the status: HLT halts, and any other instruction leaves the status or raises a fault (R80, R155). -/
def StatusFrame (i : Instr) (s t : State) : Prop :=
  i = .hlt ∧ t.status = .halted ∨ i ≠ .hlt ∧ (t.status = s.status ∨ ∃ cause info, t.status = .faulted cause info)

/-- A meaning that leaves the status alone. -/
theorem StatusFrame.of_same {i : Instr} {s t : State} (ne : i ≠ .hlt) (status : t.status = s.status) :
    StatusFrame i s t := .inr ⟨ne, .inl status⟩

/-- A meaning that raises a fault. -/
theorem StatusFrame.of_raise {i : Instr} (s u : State) (ne : i ≠ .hlt) (cause : Cause) (info : Nat) :
    StatusFrame i s (u.raise cause info) := .inr ⟨ne, .inr ⟨cause, info, rfl⟩⟩

/-- Every instruction answers a next state, within the frame. -/
theorem exec_statusFrame (i : Instr) (s : State) : ∃ t, exec i s = .next t ∧ StatusFrame i s t := by
  cases i
  case hlt => exact ⟨_, rfl, .inl ⟨rfl, rfl⟩⟩
  case call a =>
    simp only [exec, execCall]
    split
    · exact ⟨_, rfl, .of_raise _ _ (by simp) _ _⟩
    · split <;> exact ⟨_, rfl, .of_same (by simp) rfl⟩
  case mod a b =>
    simp only [exec, execMod]
    split
    · exact ⟨_, rfl, .of_raise _ _ (by simp) _ _⟩
    · exact ⟨_, rfl, .of_same (by simp) rfl⟩
  case xor a b =>
    simp only [exec, execXor]
    split
    · exact ⟨_, rfl, .of_same (by simp) rfl⟩
    · exact ⟨_, rfl, .of_raise _ _ (by simp) _ _⟩
  case ret | jeq | jne =>
    simp only [exec, execRet, execJeq, execJne]
    split <;> exact ⟨_, rfl, .of_same (by simp) rfl⟩
  all_goals exact ⟨_, rfl, .of_same (by simp) rfl⟩

/-- From a Running state, a meaning ends in Halted exactly when it is HLT's (R115). -/
theorem halted_iff_of_exec {i : Instr} {s t : State} (running : s.status = .running) (h : exec i s = .next t) :
    t.status = .halted ↔ i = .hlt := by
  obtain ⟨u, answer, frame⟩ := exec_statusFrame i s
  cases answer.symm.trans h
  rcases frame with ⟨rfl, halted⟩ | ⟨ne, same | ⟨cause, info, faulted⟩⟩
  · simp [halted]
  · simp [same, running, ne]
  · simp [faulted, ne]

/-! ## An answered step, and the byte at `pc` -/

/-- An answered step has ended Faulted before any instruction ran, or has fetched a whole instruction and is its meaning. -/
theorem step_next_status {s t : State} (h : step s = .next t) :
    (∃ cause info, t.status = .faulted cause info) ∨
      s.pc + operandCount (s.byteAt s.pc) ≤ 255 ∧
        ∃ i rest, decode s.fetchedBytes = .ok (i, rest) ∧ exec i s.fetched = .next t := by
  rw [step_of_running (running_of_step_next h)] at h
  split_ifs at h with top operands
  · cases h
    exact .inl ⟨_, _, rfl⟩
  · cases h
    exact .inl ⟨_, _, rfl⟩
  cases decoded : decode s.fetchedBytes with
  | error e =>
    obtain ⟨cause, info, raised, -⟩ := raiseDecodeError_cases e s.fetched
    rw [decoded, runDecoded, raised] at h
    cases h
    exact .inl ⟨cause, info, rfl⟩
  | ok p =>
    rw [decoded] at h
    exact .inr ⟨by omega, p.1, p.2, rfl, h⟩

/-- The byte HLT is fetched alone and decodes to HLT (R56). -/
theorem decode_fetchedBytes_of_hlt {s : State} (h : s.byteAt s.pc = 0x01#8) : decode s.fetchedBytes = .ok (.hlt, []) := by
  rw [State.fetchedBytes, bytesAt_cons, h]
  rfl

/-- The opcode byte of what the fetched bytes decode to is the byte at `pc`. -/
theorem byteAt_pc_of_decode {s : State} {i : Instr} {rest : List Byte} (h : decode s.fetchedBytes = .ok (i, rest)) :
    s.byteAt s.pc = (opcodeOf i).byte := by
  have bytes := fetchedBytes_eq_encode h
  rw [State.fetchedBytes, bytesAt_cons, encode, List.cons.injEq] at bytes
  exact bytes.1

/-! ## The statements -/

/-- Settles O37, from the equation of the step for each status. -/
theorem stepExistsIffRunning : Obligations.StepExistsIffRunning :=
  fun _ => ⟨⟨step_next_of_running, fun ⟨_, answer⟩ => running_of_step_next answer⟩, step_of_halted,
    fun _ _ => step_of_faulted⟩

/-- Settles O45: HLT stays, four instructions advance by 2, MOD advances by 3 before its check, and the others by 3. -/
theorem aluPathAdvancesByWidth : Obligations.AluPathAdvancesByWidth := by
  intro i s path
  rw [widthOf, operandCount_byte]
  cases i
  case ret | call | jmp | jeq | jne | xor => cases path
  case mod a b =>
    simp only [exec, execMod]
    split <;> exact ⟨_, rfl, rfl⟩
  all_goals exact ⟨_, rfl, rfl⟩

/-- Settles O36: the fetch is whole, so the step is what its bytes decode to. -/
theorem stepRunsTheDecodedInstruction : Obligations.StepRunsTheDecodedInstruction := by
  intro s i running fits decoded
  rw [step_of_running running, if_neg (by omega), if_neg (by omega), State.fetchedBytes, decoded]
  rfl

/-- Settles O49: HLT's byte runs HLT, and a step that ends in Halted has run HLT, whose opcode byte is the one at `pc`. -/
theorem onlyHltHalts : Obligations.OnlyHltHalts := by
  intro s t h
  have running := running_of_step_next h
  constructor
  · intro (ended : t.status = .halted)
    rcases step_next_status h with ⟨cause, info, faulted⟩ | ⟨fits, i, rest, decoded, answer⟩
    · simp [faulted] at ended
    · obtain rfl := (halted_iff_of_exec (by exact running) answer).mp ended
      exact ⟨by omega, byteAt_pc_of_decode decoded⟩
  · rintro ⟨low, hlt⟩
    have alone : operandCount (s.byteAt s.pc) = 0 := by rw [hlt]; rfl
    rw [stepRunsTheDecodedInstruction s .hlt running (by omega) (decode_fetchedBytes_of_hlt hlt)] at h
    exact (halted_iff_of_exec (by exact running) h).mpr rfl

end Sys2Proof.Machine

/-! # The family of 41_alu_arith_logic.md

First the shared effect of R90 with its value given as a number, for each ALU path, and what CMP and MOD do beside it. Then
the statements. -/

namespace Sys2Proof.Machine

/-! ## The values of the bitwise operations, as numbers -/

theorem toNat_aluAnd (x y : Byte) : (aluAnd x y).toNat = x.toNat &&& y.toNat := BitVec.toNat_and x y

theorem toNat_aluOr (x y : Byte) : (aluOr x y).toNat = x.toNat ||| y.toNat := BitVec.toNat_or x y

/-! ## The ALU paths, with the result as a number -/

/-- A two-register operation whose value is the number `n` writes that number (R90). -/
theorem aluRegReg_writes {f : Byte → Byte → Byte} {a b : Reg} {s : State} {n : Nat}
    (value : (f (s.readReg a) (s.readReg b)).toNat = n) :
    ∃ t, aluRegReg f a b s = .next t ∧ WritesOneReg 3 a n s t := by
  subst value
  exact aluRegReg_spec f a b s

/-- An operation with an immediate whose value is the number `n` writes that number (R90). -/
theorem aluRegImm_writes {f : Byte → Byte → Byte} {a : Reg} {imm : Byte} {s : State} {n : Nat}
    (value : (f (s.readReg a) imm).toNat = n) :
    ∃ t, aluRegImm f a imm s = .next t ∧ WritesOneReg 3 a n s t := by
  subst value
  exact aluRegImm_spec f a imm s

/-- NOT advances by 2 and writes the complement (R90, R98). -/
theorem execNot_spec (a : Reg) (s : State) :
    ∃ t, execNot a s = .next t ∧ WritesOneReg 2 a (aluNot (s.readReg a)).toNat s t :=
  ⟨_, rfl, writesOneReg_advance 2 a _ s⟩

/-- MOD takes the ALU path where the divisor is not 0 (R95). -/
theorem execMod_of_ne_zero {b : Reg} {s : State} (a : Reg) (divisor : s.readReg b ≠ 0#8) :
    execMod a b s = aluRegReg aluMod a b s := by
  rw [execMod, readReg_advance, if_neg divisor]

/-! ## The flags -/

theorem equalFlag_eq_true {x y : Byte} : equalFlag x y = true ↔ x = y := beq_iff_eq

/-- The flags register holds the flag last written, and 0 in the reserved bits (R16). -/
theorem flags_setFlE (s : State) (v : Bool) : (s.setFlE v).flags = if v then 1#8 else 0#8 := rfl

/-- CMP ends in the state advanced by 3, with the flag written (R101). -/
theorem execCmp_eq (a b : Reg) (s : State) :
    execCmp a b s = .next ((s.advance 3).setFlE (equalFlag (s.readReg a) (s.readReg b))) := rfl

/-! ## The statements -/

/-- Settles O6: the ALU path with the sum mod 256. -/
theorem addResult : Obligations.AddResult :=
  fun _ _ _ => ⟨rfl, aluRegReg_writes (toNat_aluAdd _ _)⟩

/-- Settles O7: the ALU path of an immediate with the sum mod 256. -/
theorem addiResult : Obligations.AddiResult :=
  fun _ _ _ => ⟨rfl, aluRegImm_writes (toNat_aluAdd _ _)⟩

/-- Settles O8: the ALU path with the product mod 256. -/
theorem mulResult : Obligations.MulResult :=
  fun _ _ _ => ⟨rfl, aluRegReg_writes (toNat_aluMul _ _)⟩

/-- Settles O9: past the divisor's check MOD takes the ALU path, and the remainder needs no reducing. -/
theorem modResult : Obligations.ModResult := by
  intro a b s divisor
  refine ⟨rfl, ?_⟩
  rw [exec, execMod_of_ne_zero a divisor]
  exact aluRegReg_writes (toNat_aluMod _ _)

/-- Settles O11: the ALU path with the bitwise and. -/
theorem andResult : Obligations.AndResult :=
  fun _ _ _ => ⟨rfl, aluRegReg_writes (toNat_aluAnd _ _)⟩

/-- Settles O12: the ALU path with the bitwise or. -/
theorem orResult : Obligations.OrResult :=
  fun _ _ _ => ⟨rfl, aluRegReg_writes (toNat_aluOr _ _)⟩

/-- Settles O13: the complement as the number `255 - x[a]`. -/
theorem notResult : Obligations.NotResult := by
  intro a s
  refine ⟨rfl, ?_⟩
  rw [← toNat_aluNot]
  exact execNot_spec a s

/-- Settles O16: the flag and the flags register are written from the comparison, and every other field is the old one. -/
theorem cmpResult : Obligations.CmpResult := by
  intro a b s
  refine ⟨rfl, _, execCmp_eq a b s, ?_, ?_, rfl, sameRegs_of_regs_eq rfl [], ⟨rfl, rfl⟩, sameMem_of_mem_eq rfl,
    ⟨rfl, rfl⟩, rfl⟩
  · rw [setFlE_flE, equalFlag_eq_true]
  · simp only [flags_setFlE, equalFlag_eq_true]

end Sys2Proof.Machine

/-! # The family of 42_alu_move_stack_sys.md

First the effect of each of the four instructions. Then the statements. -/

namespace Sys2Proof.Machine

/-! ## The two loads, with the effect of R90 -/

/-- ST advances by 3 and writes the other register's value (R110). -/
theorem execSt_spec (a b : Reg) (s : State) :
    ∃ t, execSt a b s = .next t ∧ WritesOneReg 3 a (s.readReg b).toNat s t :=
  ⟨_, rfl, writesOneReg_advance 3 a (s.readReg b) s⟩

/-- LDI advances by 3 and writes the operand byte itself (R54, R111). -/
theorem execLdi_spec (a : Reg) (imm : Byte) (s : State) :
    ∃ t, execLdi a imm s = .next t ∧ WritesOneReg 3 a imm.toNat s t :=
  ⟨_, rfl, writesOneReg_advance 3 a imm s⟩

/-! ## The output and the halt -/

/-- PRN ends in the state advanced by 2, with the register as it was before emitted (R114). -/
theorem execPrn_eq (a : Reg) (s : State) : execPrn a s = .next ((s.advance 2).emit (s.readReg a)) := rfl

/-- HLT's advance by its width 0 is none: only the status is written (R53, R115). -/
theorem execHlt_eq (s : State) : execHlt s = .next (s.setStatus .halted) := rfl

/-- A write of the status changes nothing else, the latches included (R17). -/
theorem onlyStatusChanges_setStatus (s : State) (v : Status) :
    OnlyStatusAndLatchesChange s (s.setStatus v) ∧ SameLatches s (s.setStatus v) :=
  ⟨⟨rfl, sameRegs_of_regs_eq rfl [], rfl, sameMem_of_mem_eq rfl, rfl, rfl⟩, rfl, rfl⟩

/-! ## The statements -/

/-- Settles O17: the register written is the old value of the other. -/
theorem stCopiesRegister : Obligations.StCopiesRegister :=
  fun a b s => ⟨rfl, execSt_spec a b s⟩

/-- Settles O18: the register written is the operand byte. -/
theorem ldiLoadsImmediate : Obligations.LdiLoadsImmediate :=
  fun a imm s => ⟨rfl, execLdi_spec a imm s⟩

/-- Settles O19: the byte is emitted after the advance, and every other field is the old one. -/
theorem prnAppendsOneByte : Obligations.PrnAppendsOneByte := by
  intro a s
  refine ⟨rfl, _, execPrn_eq a s, ?_, ?_, sameRegs_of_regs_eq rfl [], rfl, ⟨rfl, rfl⟩, sameMem_of_mem_eq rfl, rfl, rfl⟩
  · rw [emit_out, advance_out]
  · rw [emit_pc, advance_pc]

/-- Settles O20: the one field written is the status. -/
theorem hltHaltsInPlace : Obligations.HltHaltsInPlace :=
  fun s => ⟨rfl, _, execHlt_eq s, setStatus_status s .halted, onlyStatusChanges_setStatus s .halted⟩

end Sys2Proof.Machine

/-! # The family of 43_control_flow.md

First each of JMP, JEQ and JNE as one write of `pc`, and the frame of such a write. Then the statements. -/

namespace Sys2Proof.Machine

/-! ## The jumps, as one write of `pc` -/

/-- A write of `pc` changes nothing else. -/
theorem onlyPcChanges_setPc (s : State) (target : Nat) : OnlyPcChanges s (s.setPc target) :=
  ⟨sameRegs_of_regs_eq (setPc_regs ..) [], setPc_flE .., ⟨setPc_status .., setPc_callLink ..⟩,
    sameMem_of_mem_eq (setPc_mem ..), ⟨setPc_mar .., setPc_mdr ..⟩, setPc_out ..⟩

/-- The effect that JMP, JEQ and JNE share: only `pc` is written, with the target. -/
theorem completes_of_eq_setPc {r : Result} {s : State} {target : Nat} (answer : r = .next (s.setPc target)) :
    ∃ t, r = .next t ∧ t.pc = target ∧ OnlyPcChanges s t :=
  ⟨_, answer, setPc_pc s target, onlyPcChanges_setPc s target⟩

/-- JMP writes the register's byte (R133). -/
theorem execJmp_eq (a : Reg) (s : State) : execJmp a s = .next (s.setPc (s.readReg a).toNat) := rfl

/-- JEQ writes the register's byte if the flag is set, and advances by its width if it is clear (R134). -/
theorem execJeq_eq (a : Reg) (s : State) :
    execJeq a s = .next (s.setPc (if s.flE = true then (s.readReg a).toNat else s.pc + 2)) := by
  rw [execJeq]
  split <;> rfl

/-- JNE writes the register's byte if the flag is clear, and advances by its width if it is set (R135). -/
theorem execJne_eq (a : Reg) (s : State) :
    execJne a s = .next (s.setPc (if s.flE = false then (s.readReg a).toNat else s.pc + 2)) := by
  rw [execJne]
  cases flag : s.flE with
  | true => rfl
  | false => rfl

/-! ## The statements -/

/-- Settles O31: the one field written is `pc`. -/
theorem jmpGoesToRegister : Obligations.JmpGoesToRegister :=
  fun a s => ⟨rfl, completes_of_eq_setPc (execJmp_eq a s)⟩

/-- Settles O32: on both outcomes the one field written is `pc`. -/
theorem jeqJumpsIffEqual : Obligations.JeqJumpsIffEqual :=
  fun a s => ⟨rfl, completes_of_eq_setPc (execJeq_eq a s)⟩

/-- Settles O33: on both outcomes the one field written is `pc`. -/
theorem jneJumpsIffNotEqual : Obligations.JneJumpsIffNotEqual :=
  fun a s => ⟨rfl, completes_of_eq_setPc (execJne_eq a s)⟩

end Sys2Proof.Machine

/-! # The family of 60_exceptions.md

First the step whose whole fetch does not decode, and what the decoder answers for an opcode byte in no row. Then the
statement. -/

namespace Sys2Proof.Machine

/-! ## A whole fetch that does not decode -/

/-- From Running, with the operand bytes in memory, the decoder's error is raised after the whole fetch (R79). -/
theorem step_of_decode_error {s : State} {e : DecodeError} (running : s.status = .running)
    (fits : s.pc + operandCount (s.byteAt s.pc) ≤ 255) (decoded : decode s.fetchedBytes = .error e) :
    step s = .next (raiseDecodeError e s.fetched) := by
  rw [step_of_running running, if_neg (by omega), if_neg (by omega), decoded, runDecoded]

/-- A fault raised after a whole fetch leaves the latches on the last byte fetched (R82). -/
theorem latchesAre_raise_fetched (s : State) (cause : Cause) (info : Nat) :
    LatchesAre (BitVec.ofNat 8 (s.pc + operandCount (s.byteAt s.pc))) (s.byteAt (s.pc + operandCount (s.byteAt s.pc)))
      (s.fetched.raise cause info) :=
  ⟨rfl, rfl⟩

/-- Whatever the operand bytes are, an opcode byte in no row is refused under its own value (R58, R73). -/
theorem decode_fetchedBytes_of_undefined {s : State} (undefined : ∀ op : Opcode, op.byte ≠ s.byteAt s.pc) :
    decode s.fetchedBytes = .error (.unsupportedOpcode (s.byteAt s.pc)) := by
  rw [State.fetchedBytes, decode_fetched, lookup_eq_none.mpr undefined]

/-! ## The statement -/

/-- Settles O42: the fetch is whole and its bytes do not decode, so the fault is raised with the latches where the fetch
left them. -/
theorem undefinedByteFaults : Obligations.UndefinedByteFaults := by
  rintro s _ running rfl fits undefined
  exact ⟨_, step_of_decode_error running fits (decode_fetchedBytes_of_undefined undefined), raise_status ..,
    onlyStatusAndLatchesChange_raise (.inr ⟨_, _, rfl⟩) _ _, latchesAre_raise_fetched ..⟩

end Sys2Proof.Machine

/-! # The other statements: encoding and decoding

First what each operand reader answers on the bytes the encoder writes, and the operand bytes as the front of what follows the
opcode byte. Then the statements. -/

namespace Sys2Proof

/-! ## Reading back what the encoder writes -/

@[simp] theorem decodeReg_byteOfReg (a : Reg) (f : Reg → Instr) : decodeReg (byteOfReg a) f = .ok (f a) := by
  simp [decodeReg]

@[simp] theorem decodeRegReg_byteOfReg (a b : Reg) (f : Reg → Reg → Instr) :
    decodeRegReg (byteOfReg a) (byteOfReg b) f = .ok (f a b) := by
  simp [decodeRegReg]

/-- With a scratch register in range, XOR's reader is the two-register one (check 3 of R75). -/
theorem decodeXor_byteOfReg {a : Reg} (b : Reg) (scratch : a.val + 2 ≤ 7) :
    decodeXor (byteOfReg a) (byteOfReg b) = .ok (.xor a b) := by
  rw [decodeXor, decodeRegReg_byteOfReg]
  exact if_neg (by rw [toNat_byteOfReg]; omega)

/-- A row reads the operand bytes of a well-formed instruction as that instruction, whatever follows them. -/
theorem decodeOperands_operandBytes {i : Instr} (wf : i.wf = true) (rest : List Byte) :
    decodeOperands (opcodeOf i) ((operandBytes i ++ rest).getD 0 0) ((operandBytes i ++ rest).getD 1 0) = .ok i := by
  cases i
  case hlt | ret => rfl
  case xor a b => exact decodeXor_byteOfReg b (of_decide_eq_true wf)
  case push | pop | prn | call | jmp | jeq | jne | not | ldi | addi => exact decodeReg_byteOfReg _ _
  all_goals exact decodeRegReg_byteOfReg _ _ _

/-- An instruction has as many operand bytes as its opcode byte calls for (R51, R52). -/
theorem length_operandBytes (i : Instr) : (operandBytes i).length = operandCount (opcodeOf i).byte := by
  rw [operandCount_byte]
  cases i <;> rfl

/-! ## The bytes of what was read -/

theorem operandCount_le_two (ir : Byte) : operandCount ir ≤ 2 := by
  unfold operandCount
  split_ifs <;> omega

/-- Up to two bytes read one by one are the front of the list they were read from. -/
theorem take_getD_eq_take {bs : List Byte} {n : Nat} (long : n ≤ bs.length) (two : n ≤ 2) :
    [bs.getD 0 0, bs.getD 1 0].take n = bs.take n := by
  match n, bs with
  | 0, _ => rfl
  | 1, _ :: _ => rfl
  | 2, _ :: _ :: _ => rfl

/-! ## The statements -/

/-- Settles O1: the row is found by its byte, no operand byte is missing, and the row reads them back. -/
theorem decodeOfEncode : Obligations.DecodeOfEncode := by
  intro i rest wf
  rw [encode, List.cons_append, decode_cons, if_neg (by rw [List.length_append, length_operandBytes]; omega)]
  simp only [lookup_byte, decodeOperands_operandBytes wf, List.drop_left' (length_operandBytes i)]

/-- Settles O2: the opcode byte is the row's, and the operand bytes are those the row's reader was given. -/
theorem decodedBytesAreTheEncoding : Obligations.DecodedBytesAreTheEncoding := by
  intro bs left i decoded
  cases bs with
  | nil => cases decoded
  | cons ir rest =>
    obtain ⟨long, row, read, rfl⟩ := decode_ok decoded
    obtain ⟨wf, -, operands⟩ := decodeOperands_ok read
    rw [byte_of_lookup row, take_getD_eq_take long (operandCount_le_two ir)] at operands
    refine ⟨wf, ?_⟩
    rw [encode, byte_of_lookup row, operands, List.cons_append, List.take_append_drop]

/-- Settles O3: each word is the encoding of its instruction, so it decodes to it. -/
theorem wordsOfTheTableDecode : Obligations.WordsOfTheTableDecode :=
  ⟨decodeOfEncode .hlt [] rfl, decodeOfEncode .ret [] rfl, decodeOfEncode (.call 1) [] rfl, decodeOfEncode (.not 7) [] rfl,
    decodeOfEncode (.ldi 6 255#8) [] rfl, decodeOfEncode (.mod 0 1) [] rfl, decodeOfEncode (.xor 5 1) [] rfl⟩

end Sys2Proof

/-! # The other statements: the faults of a step

First the memory, the latches and `pc` after a meaning, then which fault a meaning raises, and with both the one inversion of
a step by its first fault. Then the statements. -/

namespace Sys2Proof.Machine

/-! ## The data access of a meaning -/

/-- What a meaning does to memory and latches: nothing, or the one read of POP and RET, or the one write of PUSH and CALL (R82). -/
inductive DataAccess (i : Instr) (s t : State) : Prop where
  | none (mem : t.mem = s.mem) (latches : SameLatches s t)
  | read (addr : Byte) (row : opcodeOf i = .pop ∨ opcodeOf i = .ret) (mem : t.mem = s.mem)
      (latches : LatchesAre addr (s.peek addr) t)
  | write (addr v : Byte) (row : opcodeOf i = .push ∨ opcodeOf i = .call) (mem : t.mem = (s.memWrite addr v).mem)
      (latches : LatchesAre addr v t)

/-- Every instruction answers a next state, with such an access. -/
theorem exec_dataAccess (i : Instr) (s : State) : ∃ t, exec i s = .next t ∧ DataAccess i s t := by
  cases i
  case push a => exact ⟨_, rfl, .write _ _ (.inl rfl) rfl ⟨rfl, rfl⟩⟩
  case pop a => exact ⟨_, rfl, .read s.sp (.inl rfl) rfl ⟨rfl, rfl⟩⟩
  case ret =>
    simp only [exec, execRet]
    split <;> exact ⟨_, rfl, .read s.sp (.inr rfl) rfl ⟨rfl, rfl⟩⟩
  case call a =>
    simp only [exec, execCall]
    split
    · exact ⟨_, rfl, .none rfl ⟨rfl, rfl⟩⟩
    · split <;> exact ⟨_, rfl, .write _ _ (.inr rfl) rfl ⟨rfl, rfl⟩⟩
  case mod | jeq | jne | xor =>
    simp only [exec, execMod, execJeq, execJne, execXor]
    split <;> exact ⟨_, rfl, .none rfl ⟨rfl, rfl⟩⟩
  all_goals exact ⟨_, rfl, .none rfl ⟨rfl, rfl⟩⟩

theorem dataAccess_of_exec {i : Instr} {s t : State} (h : exec i s = .next t) : DataAccess i s t := by
  obtain ⟨u, answer, access⟩ := exec_dataAccess i s
  cases answer.symm.trans h
  exact access

theorem DataAccess.mem_wf {i : Instr} {s t : State} (access : DataAccess i s t) (wf : s.mem.wf = true) :
    t.mem.wf = true := by
  cases access with
  | none mem _ | read _ _ mem _ => rw [mem, wf]
  | write addr v _ mem _ => rw [mem, memWrite_wf wf]

/-! ## The latches and the memory -/

/-- Latches on a cell and the byte it has agree with the memory (R18). -/
theorem latchesAgree_of_latchesAre {t : State} {addr v : Byte} (latches : LatchesAre addr v t) (cell : t.peek addr = v) :
    LatchesAgree t := by
  obtain ⟨mar, mdr⟩ := latches
  rw [LatchesAgree, mar, mdr]
  exact cell

theorem latchesAgree_of_same {s t : State} (agree : LatchesAgree s) (mem : t.mem = s.mem) (latches : SameLatches s t) :
    LatchesAgree t := by
  obtain ⟨mar, mdr⟩ := latches
  simpa only [LatchesAgree, mar, mdr, State.peek, mem] using agree

theorem DataAccess.latchesAgree {i : Instr} {s t : State} (access : DataAccess i s t) (wf : s.mem.wf = true)
    (agree : LatchesAgree s) : LatchesAgree t := by
  cases access with
  | none mem latches => exact latchesAgree_of_same agree mem latches
  | read addr _ mem latches => exact latchesAgree_of_latchesAre latches (peek_congr mem addr)
  | write addr v _ mem latches =>
    refine latchesAgree_of_latchesAre latches ?_
    rw [peek_congr mem addr, peek_memWrite wf, if_pos rfl]

/-! ## `pc` after a meaning -/

/-- A meaning leaves `pc` at a byte (a jump), where it was (HLT, or a fault), or advanced by the width (R53, R77). -/
theorem exec_pc (i : Instr) (s : State) :
    ∃ t, exec i s = .next t ∧ (t.pc ≤ 255 ∨ t.pc = s.pc ∨ t.pc = s.pc + widthOf i) := by
  have jump (a : Reg) (u : State) : (jumpReg a u).pc ≤ 255 := Nat.le_of_lt_succ (u.readReg a).isLt
  cases path : isControlFlow i with
  | false =>
    obtain ⟨t, answer, pc⟩ := aluPathAdvancesByWidth i s path
    exact ⟨t, answer, .inr (.inr pc)⟩
  | true =>
    rw [widthOf, operandCount_byte]
    cases i
    case call a =>
      simp only [exec, execCall]
      split
      · exact ⟨_, rfl, .inr (.inl rfl)⟩
      · split <;> exact ⟨_, rfl, .inl (jump a _)⟩
    case ret =>
      simp only [exec, execRet]
      split
      · exact ⟨_, rfl, .inl (Nat.le_of_lt_succ (s.peek s.sp).isLt)⟩
      · exact ⟨_, rfl, .inl (jump spReg _)⟩
    case jmp a => exact ⟨_, rfl, .inl (jump a s)⟩
    case jeq a =>
      simp only [exec, execJeq]
      split
      · exact ⟨_, rfl, .inl (jump a s)⟩
      · exact ⟨_, rfl, .inr (.inr rfl)⟩
    case jne a =>
      simp only [exec, execJne]
      split
      · exact ⟨_, rfl, .inr (.inr rfl)⟩
      · exact ⟨_, rfl, .inl (jump a s)⟩
    case xor a b =>
      simp only [exec, execXor]
      split
      · exact ⟨_, rfl, .inr (.inr rfl)⟩
      · exact ⟨_, rfl, .inr (.inl rfl)⟩
    all_goals cases path

theorem widthOf_le_operandCount_succ (i : Instr) : widthOf i ≤ operandCount (opcodeOf i).byte + 1 := by
  unfold widthOf widthOfCount
  split <;> omega

/-- From where a whole instruction was fetched, its meaning leaves `pc` at most at 256 (R14, D3). -/
theorem pc_le_of_exec {i : Instr} {s t : State} (fits : s.pc + operandCount (opcodeOf i).byte ≤ 255)
    (h : exec i s = .next t) : t.pc ≤ 256 := by
  obtain ⟨u, answer, pc⟩ := exec_pc i s
  cases answer.symm.trans h
  have width := widthOf_le_operandCount_succ i
  omega

/-! ## Which fault a meaning raises -/

/-- The fault of the instruction's own meaning: CALL's return address (R75), a divisor 0 (R95), XOR without a scratch
register. -/
def execFault (i : Instr) (s : State) : Option (Cause × Nat) :=
  match i with
  | .call _ => if 255 < s.pc + 2 then some (.addressOutOfRange, s.pc + 2) else none
  | .mod _ b => if s.readReg b = 0#8 then some (.divideByZero, b.val) else none
  | .xor a _ => if 7 < a.val + 2 then some (.invalidRegisterIndex, a.val + 2) else none
  | _ => none

/-- The state a fault is raised in: only DivideByZero comes after the advance (R163). -/
def faultPoint (cause : Cause) (s : State) : State := if cause = .divideByZero then s.advance 3 else s

/-- The fault of a meaning is all its effect. -/
theorem exec_of_execFault_some {i : Instr} {s : State} {cause : Cause} {info : Nat}
    (fault : execFault i s = some (cause, info)) : exec i s = .next ((faultPoint cause s).raise cause info) := by
  cases i
  case call a =>
    obtain ⟨top, fault⟩ := Option.ite_none_right_eq_some.mp fault
    cases fault
    exact if_pos top
  case mod a b =>
    obtain ⟨zero, fault⟩ := Option.ite_none_right_eq_some.mp fault
    cases fault
    exact if_pos zero
  case xor a b =>
    obtain ⟨top, fault⟩ := Option.ite_none_right_eq_some.mp fault
    cases fault
    rw [exec, execXor, scratchReg_none top]
    rfl
  all_goals cases fault

/-- A meaning without a fault leaves the status, or halts (R80). -/
theorem exec_of_execFault_none {i : Instr} {s : State} (noFault : execFault i s = none) :
    ∃ t, exec i s = .next t ∧ (t.status = s.status ∨ t.status = .halted) := by
  cases i
  case hlt => exact ⟨_, rfl, .inr rfl⟩
  case call a =>
    have fits : ¬ 255 < s.pc + 2 := by simpa [execFault] using noFault
    rw [exec, execCall, if_neg (by exact fits)]
    split <;> exact ⟨_, rfl, .inl rfl⟩
  case mod a b =>
    have divisor : s.readReg b ≠ 0#8 := by simpa [execFault] using noFault
    rw [exec, execMod_of_ne_zero a divisor]
    exact ⟨_, rfl, .inl rfl⟩
  case xor a b =>
    rcases scratchReg_cases a with ⟨t, found, -⟩ | ⟨-, top⟩
    · rw [exec, execXor, found]
      exact ⟨_, rfl, .inl rfl⟩
    · rw [execFault, if_pos top] at noFault
      cases noFault
  case ret | jeq | jne =>
    simp only [exec, execRet, execJeq, execJne]
    split <;> exact ⟨_, rfl, .inl rfl⟩
  all_goals exact ⟨_, rfl, .inl rfl⟩

/-! ## What the fetched bytes decode to, condition by condition (R75) -/

/-- With the opcode in a row, the row reads the operand bytes fetched. -/
theorem decode_fetchedBytes_of_lookup {s : State} {op : Opcode} (row : lookup (s.byteAt s.pc) = some op) :
    decode s.fetchedBytes =
      (decodeOperands op ((s.bytesAt (s.pc + 1) (operandCount op.byte)).getD 0 0)
        ((s.bytesAt (s.pc + 1) (operandCount op.byte)).getD 1 0)).map fun i => (i, []) := by
  rw [State.fetchedBytes, decode_fetched, row]
  dsimp only
  cases decodeOperands op _ _ <;> rfl

theorem operandCount_of_secondIsRegister {op : Opcode} (second : secondIsRegister op = true) :
    operandCount op.byte = 2 := by
  simp only [secondIsRegister, Bool.and_eq_true, beq_iff_eq] at second
  obtain ⟨⟨two, -⟩, -⟩ := second
  exact two

/-- The conditions of R157 that the decoder checks on the operands of a row: the register index to report, if one is bad. -/
def indexFault (op : Opcode) (s : State) : Option Nat :=
  if 1 ≤ operandCount op.byte ∧ 7 < (s.byteAt (s.pc + 1)).toNat then some (s.byteAt (s.pc + 1)).toNat
  else if secondIsRegister op = true ∧ 7 < (s.byteAt (s.pc + 2)).toNat then some (s.byteAt (s.pc + 2)).toNat
  else if op = .xor ∧ 7 < (s.byteAt (s.pc + 1)).toNat + 2 then some ((s.byteAt (s.pc + 1)).toNat + 2)
  else none

theorem indexFault_of_bad_a {op : Opcode} {s : State} (one : 1 ≤ operandCount op.byte)
    (ha : 7 < (s.byteAt (s.pc + 1)).toNat) : indexFault op s = some (s.byteAt (s.pc + 1)).toNat :=
  if_pos ⟨one, ha⟩

theorem indexFault_of_bad_b {op : Opcode} {s : State} (second : secondIsRegister op = true)
    (ha : (s.byteAt (s.pc + 1)).toNat ≤ 7) (hb : 7 < (s.byteAt (s.pc + 2)).toNat) :
    indexFault op s = some (s.byteAt (s.pc + 2)).toNat := by
  rw [indexFault, if_neg (by omega), if_pos ⟨second, hb⟩]

/-- A bad register index is what the decoder refuses. -/
theorem decode_fetchedBytes_of_indexFault_some {s : State} {op : Opcode} {v : Nat}
    (row : lookup (s.byteAt s.pc) = some op) (bad : indexFault op s = some v) :
    decode s.fetchedBytes = .error (.invalidRegisterIndex v) := by
  rw [decode_fetchedBytes_of_lookup row]
  unfold indexFault at bad
  split_ifs at bad with ha hb hx <;> cases bad
  · rw [getD_bytesAt s (s.pc + 1) ha.1, decodeOperands_bad_a _ ha.1 ha.2]
    rfl
  · obtain ⟨second, hb⟩ := hb
    rw [operandCount_of_secondIsRegister second] at ha ⊢
    rw [getD_bytesAt s _ (by decide), getD_bytesAt s _ (by decide), decodeOperands_bad_b second _ hb]
    · rfl
    · exact Nat.not_lt.mp fun a_bad => ha ⟨by decide, a_bad⟩
  · obtain ⟨rfl, top⟩ := hx
    have a_good := Nat.not_lt.mp fun a_bad => ha ⟨by decide, a_bad⟩
    have b_good := Nat.not_lt.mp fun b_bad => hb ⟨by decide, b_bad⟩
    rw [getD_bytesAt s _ (by decide), getD_bytesAt s _ (by decide), decodeOperands_bad_scratch a_good b_good top]
    rfl

/-- Without a bad register index the bytes decode. -/
theorem decode_fetchedBytes_of_indexFault_none {s : State} {op : Opcode} (row : lookup (s.byteAt s.pc) = some op)
    (good : indexFault op s = none) : ∃ i, decode s.fetchedBytes = .ok (i, []) := by
  rw [decode_fetchedBytes_of_lookup row]
  unfold indexFault at good
  split_ifs at good with ha hb hx
  have read : ∃ i, decodeOperands op ((s.bytesAt (s.pc + 1) (operandCount op.byte)).getD 0 0)
      ((s.bytesAt (s.pc + 1) (operandCount op.byte)).getD 1 0) = .ok i := by
    refine decodeOperands_good (fun one => ?_) (fun second => ?_) fun xor => ?_
    · rw [getD_bytesAt s _ one]
      exact Nat.not_lt.mp fun bad => ha ⟨one, bad⟩
    · rw [getD_bytesAt s _ (by rw [operandCount_of_secondIsRegister second]; decide)]
      exact Nat.not_lt.mp fun bad => hb ⟨second, bad⟩
    · rw [getD_bytesAt s _ (by rw [xor]; decide)]
      exact Nat.not_lt.mp fun bad => hx ⟨xor, bad⟩
  obtain ⟨i, read⟩ := read
  exact ⟨i, by rw [read]; rfl⟩

/-! ## The first fault, condition by condition (R157) -/

theorem firstFault_of_above {s : State} (top : 255 < s.pc) : firstFault s = some (.addressOutOfRange, s.pc) :=
  if_pos top

theorem firstFault_of_operands_above {s : State} (low : s.pc ≤ 255)
    (operands : 255 < s.pc + operandCount (s.byteAt s.pc)) :
    firstFault s = some (.addressOutOfRange, s.pc + operandCount (s.byteAt s.pc)) := by
  rw [firstFault, if_neg (by omega), if_pos operands]

theorem firstFault_of_undefined {s : State} (fits : s.pc + operandCount (s.byteAt s.pc) ≤ 255)
    (row : lookup (s.byteAt s.pc) = none) : firstFault s = some (.unsupportedOpcode, (s.byteAt s.pc).toNat) := by
  rw [firstFault, if_neg (by omega), if_neg (by omega), row]

section
variable {s : State} {op : Opcode} (fits : s.pc + operandCount (s.byteAt s.pc) ≤ 255)
  (row : lookup (s.byteAt s.pc) = some op)
include fits row

theorem firstFault_of_indexFault_some {v : Nat} (bad : indexFault op s = some v) :
    firstFault s = some (.invalidRegisterIndex, v) := by
  rw [firstFault, if_neg (by omega), if_neg (by omega), row, ← byte_of_lookup row]
  unfold indexFault at bad
  split_ifs at bad with ha hb hx <;> cases bad
  · exact if_pos ha
  · exact (if_neg ha).trans (if_pos hb)
  · exact (if_neg ha).trans ((if_neg hb).trans (if_pos hx))

/-- The two conditions that are left when the bytes decode. -/
theorem firstFault_of_indexFault_none (good : indexFault op s = none) :
    firstFault s =
      if op = .call ∧ 255 < s.pc + 2 then some (.addressOutOfRange, s.pc + 2)
      else if op = .mod ∧ (regOfByte (s.byteAt (s.pc + 2))).map s.readReg = some 0#8 then
        some (.divideByZero, (s.byteAt (s.pc + 2)).toNat)
      else none := by
  rw [firstFault, if_neg (by omega), if_neg (by omega), row, ← byte_of_lookup row]
  unfold indexFault at good
  split_ifs at good with ha hb hx
  exact (if_neg ha).trans ((if_neg hb).trans (if_neg hx))

end

/-- A decoder error raises the first fault, which is then one of the opcode or of a register index. -/
theorem firstFault_of_decode_error {s : State} {e : DecodeError} (fits : s.pc + operandCount (s.byteAt s.pc) ≤ 255)
    (decoded : decode s.fetchedBytes = .error e) :
    ∃ cause info, firstFault s = some (cause, info) ∧ cause ≠ .divideByZero ∧
      raiseDecodeError e s.fetched = s.fetched.raise cause info := by
  cases row : lookup (s.byteAt s.pc) with
  | none =>
    cases decoded.symm.trans (decode_fetchedBytes_of_undefined (lookup_eq_none.mp row))
    exact ⟨_, _, firstFault_of_undefined fits row, nofun, rfl⟩
  | some op =>
    cases index : indexFault op s with
    | some v =>
      cases decoded.symm.trans (decode_fetchedBytes_of_indexFault_some row index)
      exact ⟨_, _, firstFault_of_indexFault_some fits row index, nofun, rfl⟩
    | none =>
      obtain ⟨i, good⟩ := decode_fetchedBytes_of_indexFault_none row index
      cases decoded.symm.trans good

/-- Operand b, as a byte of memory. -/
theorem byteAt_two_of_fetchedBytes {s : State} {ir a b : Byte} (bytes : s.fetchedBytes = [ir, a, b]) :
    s.byteAt (s.pc + 2) = b := by
  have long : operandCount (s.byteAt s.pc) + 1 = 3 := (length_bytesAt s s.pc _).symm.trans (congrArg List.length bytes)
  have read : s.fetchedBytes.getD 2 0 = s.byteAt (s.pc + 2) := getD_bytesAt s s.pc (by omega)
  rw [← read, bytes]
  rfl

/-- Past the decoder, the first fault is the one the instruction's meaning raises. -/
theorem firstFault_of_decode_ok {s : State} {i : Instr} {rest : List Byte}
    (fits : s.pc + operandCount (s.byteAt s.pc) ≤ 255) (decoded : decode s.fetchedBytes = .ok (i, rest)) :
    firstFault s = execFault i s.fetched := by
  have row : lookup (s.byteAt s.pc) = some (opcodeOf i) := by rw [byteAt_pc_of_decode decoded, lookup_byte]
  have good : indexFault (opcodeOf i) s = none := by
    cases index : indexFault (opcodeOf i) s with
    | some v => cases decoded.symm.trans (decode_fetchedBytes_of_indexFault_some row index)
    | none => rfl
  rw [firstFault_of_indexFault_none fits row good]
  cases i
  case call a => exact if_congr (by simp [opcodeOf, State.fetched]) rfl (if_neg (by simp [opcodeOf]))
  case mod a b =>
    have operand : s.byteAt (s.pc + 2) = byteOfReg b := byteAt_two_of_fetchedBytes (fetchedBytes_eq_encode decoded)
    rw [operand, regOfByte_byteOfReg, toNat_byteOfReg]
    exact (if_neg (by simp [opcodeOf])).trans (if_congr (by simp [opcodeOf, State.fetched]) rfl rfl)
  case xor a b =>
    obtain ⟨wf, -⟩ := decodedBytesAreTheEncoding _ _ _ decoded
    have scratch : a.val + 2 ≤ 7 := of_decide_eq_true wf
    exact (if_neg (by omega)).symm
  all_goals rfl

/-! ## Every way a step can go, with its first fault -/

/-- A step from Running raises its first fault at the state it started in, but for the latches; or it is the meaning of the
instruction at `pc`, which raises the first fault, if there is one. -/
theorem step_running_cases {s : State} (running : s.status = .running) :
    (∃ cause info u, firstFault s = some (cause, info) ∧ cause ≠ .divideByZero ∧
      (u = s ∨ ∃ addr, u = s.latch addr (s.peek addr)) ∧ step s = .next (u.raise cause info)) ∨
    ∃ i, s.byteAt s.pc = (opcodeOf i).byte ∧ s.pc + operandCount (opcodeOf i).byte ≤ 255 ∧
      firstFault s = execFault i s.fetched ∧ step s = exec i s.fetched := by
  rw [step_of_running running]
  split_ifs with top operands
  · exact .inl ⟨_, _, s, firstFault_of_above top, nofun, .inl rfl, rfl⟩
  · exact .inl ⟨_, _, _, firstFault_of_operands_above (by omega) operands, nofun, .inr ⟨_, rfl⟩, rfl⟩
  have fits : s.pc + operandCount (s.byteAt s.pc) ≤ 255 := by omega
  cases decoded : decode s.fetchedBytes with
  | error e =>
    obtain ⟨cause, info, first, ne, raised⟩ := firstFault_of_decode_error fits decoded
    exact .inl ⟨cause, info, s.fetched, first, ne, .inr ⟨_, rfl⟩, by rw [runDecoded, raised]⟩
  | ok p =>
    obtain ⟨i, rest⟩ := p
    have row := byteAt_pc_of_decode decoded
    exact .inr ⟨i, row, by rwa [← row], firstFault_of_decode_ok fits decoded, rfl⟩

/-! ## What the first fault can be -/

/-- A bad register index is above 7, and a byte or XOR's `a + 2`, which is at most 9. -/
theorem indexFault_range {op : Opcode} {s : State} {v : Nat} (bad : indexFault op s = some v) : 8 ≤ v ∧ v < 256 := by
  have a_byte := (s.byteAt (s.pc + 1)).isLt
  have b_byte := (s.byteAt (s.pc + 2)).isLt
  unfold indexFault at bad
  split_ifs at bad with ha hb hx <;> cases bad
  · omega
  · omega
  · obtain ⟨rfl, top⟩ := hx
    have a_good := Nat.not_lt.mp fun a_bad => ha ⟨by decide, a_bad⟩
    omega

/-- The first fault is one the rules allow (R151 to R156); an address above memory is `pc` itself or at most two further. -/
theorem firstFault_info {s : State} {cause : Cause} {info : Nat} (h : firstFault s = some (cause, info)) :
    cause = .addressOutOfRange ∧ 255 < info ∧ (info = s.pc ∨ s.pc ≤ 255 ∧ info ≤ s.pc + 2) ∨
      cause ≠ .addressOutOfRange ∧ legalFault cause info := by
  by_cases top : 255 < s.pc
  · cases (firstFault_of_above top).symm.trans h
    exact .inl ⟨rfl, top, .inl rfl⟩
  by_cases operands : 255 < s.pc + operandCount (s.byteAt s.pc)
  · cases (firstFault_of_operands_above (by omega) operands).symm.trans h
    have two := operandCount_le_two (s.byteAt s.pc)
    exact .inl ⟨rfl, operands, .inr ⟨by omega, by omega⟩⟩
  have fits : s.pc + operandCount (s.byteAt s.pc) ≤ 255 := by omega
  cases row : lookup (s.byteAt s.pc) with
  | none =>
    cases (firstFault_of_undefined fits row).symm.trans h
    refine .inr ⟨nofun, (s.byteAt s.pc).isLt, ?_⟩
    rw [BitVec.ofNat_toNat, BitVec.setWidth_eq]
    exact lookup_eq_none.mp row
  | some op =>
    cases index : indexFault op s with
    | some v =>
      cases (firstFault_of_indexFault_some fits row index).symm.trans h
      exact .inr ⟨nofun, indexFault_range index⟩
    | none =>
      rw [firstFault_of_indexFault_none fits row index] at h
      split_ifs at h with hc hm <;> cases h
      · exact .inl ⟨rfl, hc.2, .inr ⟨by omega, le_rfl⟩⟩
      · obtain ⟨r, operand, -⟩ := Option.map_eq_some_iff.mp hm.2
        have index : (s.byteAt (s.pc + 2)).toNat = r.val := by rw [← byteOfReg_of_regOfByte operand, toNat_byteOfReg]
        exact .inr ⟨nofun, by rw [index]; exact r.isLt⟩

/-- With `pc` in 0..256 the first fault is one a Faulted status may hold. -/
theorem legalFault_of_firstFault {s : State} {cause : Cause} {info : Nat} (pc : s.pc ≤ 256)
    (h : firstFault s = some (cause, info)) : legalFault cause info := by
  rcases firstFault_info h with ⟨rfl, above, near⟩ | ⟨-, legal⟩
  · simp only [legalFault]
    omega
  · exact legal

/-! ## The statements -/

/-- Settles O40: a step raises its first fault, or is the meaning of an instruction that raises it, if there is one. -/
theorem stepRaisesTheFirstFault : Obligations.StepRaisesTheFirstFault := by
  intro s running
  rcases step_running_cases running with ⟨cause, info, u, first, -, -, answer⟩ | ⟨i, -, -, first, answer⟩
  · rw [first]
    exact ⟨_, answer, raise_status ..⟩
  rw [first, answer]
  cases fault : execFault i s.fetched with
  | some f => exact ⟨_, exec_of_execFault_some fault, raise_status ..⟩
  | none =>
    obtain ⟨t, answer, status⟩ := exec_of_execFault_none fault
    exact ⟨t, answer, status.imp_left fun same => same.trans running⟩

/-- An answered step has ended Faulted with its first fault, or has none and has not ended Faulted. -/
theorem status_of_step {s t : State} (h : step s = .next t) :
    (∃ cause info, firstFault s = some (cause, info) ∧ t.status = .faulted cause info) ∨
      firstFault s = none ∧ (t.status = .running ∨ t.status = .halted) := by
  obtain ⟨u, answer, status⟩ := stepRaisesTheFirstFault s (running_of_step_next h)
  cases answer.symm.trans h
  cases first : firstFault s with
  | some f =>
    rw [first] at status
    exact .inl ⟨f.1, f.2, rfl, status⟩
  | none =>
    rw [first] at status
    exact .inr ⟨rfl, status⟩

/-- A step that ends Faulted has this first fault. -/
theorem firstFault_of_faulted {s t : State} {cause : Cause} {info : Nat} (h : step s = .next t)
    (faulted : t.status = .faulted cause info) : firstFault s = some (cause, info) := by
  rcases status_of_step h with ⟨c, n, first, status⟩ | ⟨-, status | status⟩ <;> cases status.symm.trans faulted
  exact first

/-- Settles O50: the cause is that of a first fault, and no first fault has this cause. -/
theorem aluOperationIsAlwaysSupported : Obligations.AluOperationIsAlwaysSupported := by
  intro s t info h unsupported
  rcases firstFault_info (firstFault_of_faulted h unsupported) with ⟨⟨⟩, -⟩ | ⟨-, legal⟩
  exact legal

/-- Settles O41: the first fault is raised before any instruction, or is all the effect of a meaning. -/
theorem faultsArePrecise : Obligations.FaultsArePrecise := by
  intro s t cause info running h faulted
  have first := firstFault_of_faulted h faulted
  rcases step_running_cases running with ⟨c, n, u, same, ne, origin, answer⟩ | ⟨i, -, -, same, answer⟩
  · cases same.symm.trans first
    cases answer.symm.trans h
    obtain ⟨pc, regs, flag, mem, out, link⟩ :=
      onlyStatusAndLatchesChange_raise (origin.imp_right fun ⟨addr, e⟩ => ⟨addr, _, e⟩) cause info
    exact ⟨regs, flag, mem, out, link, by rw [pc, if_neg ne]⟩
  · cases (exec_of_execFault_some (same.symm.trans first)).symm.trans (answer.symm.trans h)
    unfold faultPoint
    split <;> exact ⟨fun _ _ => rfl, rfl, fun _ => rfl, rfl, rfl, rfl⟩

/-- Settles O53: without a fault the step is the meaning of the instruction at `pc`, which accesses no data. -/
theorem latchesEndOnTheLastByteFetched : Obligations.LatchesEndOnTheLastByteFetched := by
  intro s t running h noFault other
  rcases step_running_cases running with ⟨c, n, u, first, -⟩ | ⟨i, row, -, -, answer⟩
  · cases noFault.symm.trans first
  · rw [row] at other
    cases dataAccess_of_exec (answer.symm.trans h) with
    | none _ latches => exact latches
    | read _ row _ _ | write _ _ row _ _ => rcases row with row | row <;> simp [row, Opcode.byte] at other

/-- After a step the status is a legal one. -/
theorem legal_status_of_step {s t : State} (pc : s.pc ≤ 256) (h : step s = .next t) : t.status.legal := by
  rcases status_of_step h with ⟨cause, info, first, status⟩ | ⟨-, status | status⟩ <;> rw [status]
  · exact legalFault_of_firstFault pc first
  · trivial
  · trivial

/-- The latches of a state the fetch has moved agree with the memory. -/
theorem latchesAgree_latch (s : State) (addr : Byte) : LatchesAgree (s.latch addr (s.peek addr)) :=
  latchesAgree_of_latchesAre ⟨rfl, rfl⟩ rfl

/-- Settles O38: a fault moves at most the latches, to a byte read; a meaning keeps memory and latches by its data access, and
`pc` by the instruction's width. -/
theorem stepKeepsInvariant : Obligations.StepKeepsInvariant := by
  intro s t ⟨wf, pc, agree, _⟩ h
  have status := legal_status_of_step pc h
  rcases step_running_cases (running_of_step_next h) with ⟨c, n, u, -, -, origin, answer⟩ | ⟨i, -, fits, -, answer⟩
  · cases answer.symm.trans h
    rcases origin with rfl | ⟨addr, rfl⟩
    · exact ⟨wf, pc, agree, status⟩
    · exact ⟨wf, pc, latchesAgree_latch s addr, status⟩
  · have ran := answer.symm.trans h
    have access := dataAccess_of_exec ran
    have agree := access.latchesAgree wf (latchesAgree_latch s _)
    exact ⟨access.mem_wf wf, pc_le_of_exec (s := s.fetched) fits ran, agree, status⟩

/-- Settles O43: both faults of the fetch, which moves the latches to the opcode byte in the second case only. -/
theorem fetchAboveMemoryFaults : Obligations.FetchAboveMemoryFaults := by
  intro s running
  rw [step_of_running running]
  constructor
  · intro top
    rw [if_pos (by omega), top]
    exact ⟨_, rfl, rfl, onlyStatusAndLatchesChange_raise (.inl rfl) _ _, rfl, rfl⟩
  · intro low operands
    rw [if_neg (by omega), if_pos operands]
    exact ⟨_, rfl, rfl, onlyStatusAndLatchesChange_raise (.inr ⟨_, _, rfl⟩) _ _, rfl, rfl⟩

/-- A bad register index is raised after the whole fetch. -/
theorem step_of_indexFault {s : State} {op : Opcode} {v : Nat} (running : s.status = .running)
    (row : s.byteAt s.pc = op.byte) (fits : s.pc + operandCount op.byte ≤ 255) (bad : indexFault op s = some v) :
    ∃ t, step s = .next t ∧ t.status = .faulted .invalidRegisterIndex v ∧ OnlyStatusAndLatchesChange s t ∧
      LatchesAre (BitVec.ofNat 8 (s.pc + operandCount op.byte)) (s.byteAt (s.pc + operandCount op.byte)) t := by
  have decoded := decode_fetchedBytes_of_indexFault_some (by rw [row, lookup_byte]) bad
  rw [← row] at fits ⊢
  exact ⟨_, step_of_decode_error running fits decoded, raise_status ..,
    onlyStatusAndLatchesChange_raise (.inr ⟨_, _, rfl⟩) _ _, latchesAre_raise_fetched ..⟩

/-- Settles O44: both are a bad register index, and a row whose operand b is a register has two operand bytes. -/
theorem registerIndexAboveSevenFaults : Obligations.RegisterIndexAboveSevenFaults := by
  intro s op running row fits
  refine ⟨fun one ha => step_of_indexFault running row fits (indexFault_of_bad_a one ha), fun second ha hb => ?_⟩
  have answer := step_of_indexFault running row fits (indexFault_of_bad_b second ha hb)
  rwa [operandCount_of_secondIsRegister second] at answer

end Sys2Proof.Machine

/-! # The other statements: the shifts, the faults of MOD, CALL and XOR, and XOR's value

First the state a faulting meaning ends in, and XOR's five statements as bit operations. Then the statements. -/

namespace Sys2Proof.Machine

/-! ## The faults -/

/-- A fault that is no DivideByZero is raised in the state before the instruction. -/
theorem raises_of_execFault {i : Instr} {s : State} {cause : Cause} {info : Nat}
    (fault : execFault i s = some (cause, info)) (ne : cause ≠ .divideByZero) :
    ∃ t, exec i s = .next t ∧ t.status = .faulted cause info ∧ OnlyStatusAndLatchesChange s t ∧ SameLatches s t := by
  refine ⟨_, exec_of_execFault_some fault, raise_status .., ?_⟩
  rw [faultPoint, if_neg ne]
  exact onlyStatusChanges_setStatus s _

/-! ## XOR -/

/-- With a scratch register XOR runs its five statements, and then advances (R136, D8). -/
theorem execXor_eq {a scratch : Reg} (b : Reg) (s : State) (val : scratch.val = a.val + 2) :
    execXor a b s = .next ((xorSequence a b scratch s).advance 3) := by
  rw [execXor, scratchReg_of_val val]

theorem aluNot_eq (x : Byte) : aluNot x = ~~~x := by
  refine BitVec.eq_of_toNat_eq ?_
  rw [toNat_aluNot, BitVec.toNat_not]

/-- The gates of R136 make the exclusive OR, bit by bit. -/
theorem and_or_not_and_eq_xor (x y : Byte) : aluAnd (aluOr x y) (aluNot (aluAnd x y)) = x ^^^ y := by
  rw [aluNot_eq, aluAnd, aluAnd, aluOr]
  refine BitVec.eq_of_getLsbD_eq fun k bit => ?_
  simp only [BitVec.getLsbD_and, BitVec.getLsbD_or, BitVec.getLsbD_not, BitVec.getLsbD_xor, bit, decide_true,
    Bool.true_and]
  cases x.getLsbD k <;> cases y.getLsbD k <;> rfl

/-! ## The statements -/

/-- Settles O10: the fault is raised in the state advanced by 3. -/
theorem modByZeroFaults : Obligations.ModByZeroFaults :=
  fun _ _ _ zero => ⟨_, exec_of_execFault_some (if_pos zero), rfl, rfl, sameRegs_of_regs_eq rfl [], rfl,
    sameMem_of_mem_eq rfl, ⟨rfl, rfl⟩, rfl, rfl⟩

/-- Settles O30, from the fault of CALL's meaning. -/
theorem callAtTheTopFaults : Obligations.CallAtTheTopFaults :=
  fun _ _ top => raises_of_execFault (if_pos top) nofun

/-- Settles O35, from the fault of XOR's meaning. -/
theorem xorWithoutScratchFaults : Obligations.XorWithoutScratchFaults :=
  fun _ _ _ top => raises_of_execFault (if_pos top) nofun

/-- Settles O14: the ALU path with the product by the power, mod 256. -/
theorem shlResult : Obligations.ShlResult :=
  fun _ _ _ => ⟨rfl, aluRegReg_writes (toNat_aluShl _ _)⟩

/-- Settles O15: the ALU path with the quotient by the power. -/
theorem shrResult : Obligations.ShrResult :=
  fun _ _ _ => ⟨rfl, aluRegReg_writes (toNat_aluShr _ _)⟩

/-- Settles O34: the five statements' values, with operand b's value after the copy, and their frame. -/
theorem xorCompositeIsXor : Obligations.XorCompositeIsXor := by
  intro a b scratch s val
  have ne : scratch ≠ a := fun e => by rw [e] at val; omega
  obtain ⟨scratchValue, value⟩ := xorSequence_values b ne s
  rw [and_or_not_and_eq_xor] at value
  refine ⟨rfl, _, execXor_eq b s val, fun other => ?_, fun own => ?_, rfl, sameRegs_xorSequence a b scratch s, rfl,
    ⟨rfl, rfl⟩, fun _ => rfl, ⟨rfl, rfl⟩, rfl⟩
  · rw [if_neg other] at scratchValue value
    rw [readReg_advance, readReg_advance, scratchValue, value, toNat_aluNot]
    exact ⟨rfl, rfl⟩
  · rw [if_pos own] at scratchValue value
    rw [readReg_advance, readReg_advance, scratchValue, value, toNat_aluNot, aluAnd, BitVec.and_self, BitVec.xor_self]
    exact ⟨rfl, rfl⟩

end Sys2Proof.Machine

/-! # The other statements: the stack

First the registers after a push, and the pointer's arithmetic. Then the statements. -/

namespace Sys2Proof.Machine

/-- A push moves no register but the pointer. -/
theorem readReg_pushWith (v : State → Byte) (s : State) (r : Reg) :
    (pushWith v s).readReg r = if r = spReg then s.sp - 1#8 else s.readReg r := by
  rw [pushWith_eq, readReg_memWrite, readReg_writeReg]

/-- The cell a push stores at is not the one the pointer named before. -/
theorem ne_dec (x : Byte) : x ≠ x - 1#8 := by bv_omega

/-! ## The statements -/

/-- Settles O21: PUSH is the push of the register, read after the decrement, in the state advanced by 2. -/
theorem pushStoresAtDecrementedPointer : Obligations.PushStoresAtDecrementedPointer := by
  intro a s wf
  obtain ⟨sp, cell, cells, latches, regs, -⟩ := pushWith_spec (fun s1 => s1.readReg a) (s := s.advance 2) wf
  rw [readReg_decSp] at cell latches
  exact ⟨rfl, _, rfl, sp, cell, cells, latches, rfl, regs, rfl, ⟨rfl, rfl⟩, rfl⟩

/-- Settles O22: POP is the pop into the register, in the state advanced by 2. -/
theorem popLoadsThenIncrements : Obligations.PopLoadsThenIncrements := by
  intro a s
  obtain ⟨other, pointer, regs, latches⟩ := popInto_spec a (s.advance 2)
  exact ⟨rfl, _, rfl, other, pointer, latches, rfl, regs, fun _ => rfl, rfl, ⟨rfl, rfl⟩, rfl⟩

/-- Settles O23: the pop reads the cell the push stored. -/
theorem pushThenPopRestoresRegisters : Obligations.PushThenPopRestoresRegisters := by
  intro a s wf
  obtain ⟨-, t, pushed, sp, cell, -, -, -, regs, -⟩ := pushStoresAtDecrementedPointer a s wf
  obtain ⟨-, u, popped, other, pointer, -, -, regs', mem, -⟩ := popLoadsThenIncrements a t
  rw [sp, cell] at other pointer
  refine ⟨t, u, pushed, popped, fun r => ?_, fun ne => by rw [mem, cell, if_neg ne]⟩
  by_cases h7 : r = 7
  · subst h7
    by_cases ha : a = 7
    · rw [pointer ha, if_pos ha, BitVec.sub_add_cancel]
    · rw [(other ha).2, BitVec.sub_add_cancel]
  · by_cases hr : r = a
    · subst hr
      rw [(other h7).1, if_neg h7]
    · rw [regs' r (by simp [h7, hr]), regs r (by simp [h7])]

/-- Settles O24: the second push leaves the first one's cell alone, and each pop reads the cell of the other's push. -/
theorem twoPushesTwoPopsExchange : Obligations.TwoPushesTwoPopsExchange := by
  intro a b s wf ha hb
  obtain ⟨-, t, push1, sp1, cell1, -, -, -, regs1, -⟩ := pushStoresAtDecrementedPointer a s wf
  have wf1 := (dataAccess_of_exec push1).mem_wf wf
  obtain ⟨-, u, push2, sp2, cell2, cells2, -⟩ := pushStoresAtDecrementedPointer b t wf1
  obtain ⟨-, v, pop1, load1, -, -, -, -, mem1, -⟩ := popLoadsThenIncrements a u
  obtain ⟨-, w, pop2, load2, -, -, -, regs4, -⟩ := popLoadsThenIncrements b v
  obtain ⟨value1, sp3⟩ := load1 ha
  obtain ⟨value2, sp4⟩ := load2 hb
  rw [if_neg ha] at cell1
  rw [if_neg hb, regs1 b (by simp [hb])] at cell2
  rw [sp2, cell2] at value1
  rw [sp2, BitVec.sub_add_cancel] at sp3
  rw [sp3, mem1, cells2 _ (ne_dec _), sp1, cell1] at value2
  rw [sp3, sp1, BitVec.sub_add_cancel] at sp4
  refine ⟨t, u, v, w, push1, push2, pop1, pop2, ?_, value2, sp4⟩
  by_cases same : a = b
  · rw [same, value2, same]
  · rw [regs4 a (by simp [same, ha]), value1]

end Sys2Proof.Machine

/-! # The other statements: CALL and RET

First each reading of CALL and RET as its final state, and the return address as a byte. Then the statements. -/

namespace Sys2Proof.Machine

/-- CALL with a return address that fits a cell, under STACK. -/
theorem execCall_of_stack (a : Reg) {s : State} (link : s.callLink = .stack) (fits : s.pc + 2 ≤ 255) :
    execCall a s = .next (callStack a s) := by
  rw [execCall, if_neg (by exact Nat.not_lt.mpr fits), link]

/-- CALL with a return address that fits a cell, under VIA_R7. -/
theorem execCall_of_viaR7 (a : Reg) {s : State} (link : s.callLink = .viaR7) (fits : s.pc + 2 ≤ 255) :
    execCall a s = .next (callViaR7 a s) := by
  rw [execCall, if_neg (by exact Nat.not_lt.mpr fits), link]

theorem execRet_of_stack {s : State} (link : s.callLink = .stack) : execRet s = .next (retStack s) := by
  rw [execRet, link]

theorem execRet_of_viaR7 {s : State} (link : s.callLink = .viaR7) : execRet s = .next (retViaR7 s) := by
  rw [execRet, link]

/-- A jump goes to the register's byte. -/
theorem jumpReg_pc (a : Reg) (s : State) : (jumpReg a s).pc = (s.readReg a).toNat := rfl

/-- The decremented return address is the address of the CALL's operand byte. -/
theorem ofNat_add_two_dec (n : Nat) : BitVec.ofNat 8 (n + 2) - 1#8 = BitVec.ofNat 8 (n + 1) := by
  rw [show n + 2 = n + 1 + 1 from rfl, BitVec.ofNat_add (n + 1) 1, BitVec.add_sub_cancel]

/-- An address of the memory is not changed by holding it as a byte. -/
theorem toNat_ofNat_of_le {n : Nat} (h : n ≤ 255) : (BitVec.ofNat 8 n).toNat = n :=
  (BitVec.toNat_ofNat n 8).trans (Nat.mod_eq_of_lt (by omega))

/-! ## The statements -/

/-- Settles O25: CALL is the push of the return address, and then a jump that changes `pc` alone. -/
theorem callPushesReturnAddress : Obligations.CallPushesReturnAddress := by
  intro a s link fits wf
  obtain ⟨sp, cell, cells, latches, regs, -⟩ := pushWith_spec (fun _ => BitVec.ofNat 8 (s.pc + 2)) wf
  refine ⟨rfl, _, execCall_of_stack a link fits, sp, cell, cells, latches, ?_, regs, rfl, ⟨rfl, rfl⟩, rfl⟩
  rw [callStack, jumpReg_pc, readReg_pushWith]
  rfl

/-- Settles O26: RET reads the cell, increments the pointer and writes `pc`. -/
theorem retPopsIntoPc : Obligations.RetPopsIntoPc := by
  intro s link
  refine ⟨rfl, _, execRet_of_stack link, rfl, sp_incSp _, ⟨rfl, rfl⟩, ?_, fun _ => rfl, rfl, ⟨rfl, rfl⟩, rfl⟩
  exact sameRegs_writeReg _ spReg _

/-- Settles O27: CALL is the push of register 7 in the state where it holds the return address, and then a jump. -/
theorem callViaR7OverwritesItsOperand : Obligations.CallViaR7OverwritesItsOperand := by
  intro a s link fits wf
  have dec : (s.writeReg spReg (BitVec.ofNat 8 (s.pc + 2))).sp - 1#8 = BitVec.ofNat 8 (s.pc + 1) := by
    rw [sp_def, readReg_writeReg, if_pos rfl, ofNat_add_two_dec]
  have small : (BitVec.ofNat 8 (s.pc + 1)).toNat = s.pc + 1 := toNat_ofNat_of_le (by omega)
  obtain ⟨sp, cell, cells, latches, regs, -⟩ :=
    pushWith_spec (fun s1 => s1.readReg spReg) (s := s.writeReg spReg (BitVec.ofNat 8 (s.pc + 2))) wf
  rw [← sp_def, sp_decSp, dec] at cell latches
  rw [dec] at sp cells
  refine ⟨_, execCall_of_viaR7 a link fits, (congrArg BitVec.toNat sp).trans small,
    (congrArg BitVec.toNat cell).trans small, cells, latches, ?_,
    fun r other => (regs r other).trans (sameRegs_writeReg s spReg _ r other), rfl, ⟨rfl, rfl⟩, rfl⟩
  rw [callViaR7, jumpReg_pc, readReg_pushWith, dec]
  by_cases h7 : a = spReg
  · rw [if_pos h7, small]
    exact (if_pos h7).symm
  · rw [if_neg h7, readReg_writeReg, if_neg h7]
    exact (if_neg h7).symm

/-- Settles O28: RET is the pop into register 7, and then a jump to it. -/
theorem retViaR7JumpsToIncrementedByte : Obligations.RetViaR7JumpsToIncrementedByte := by
  intro s link
  obtain ⟨-, pointer, regs, latches⟩ := popInto_spec spReg s
  refine ⟨_, execRet_of_viaR7 link, pointer rfl, rfl, latches, fun r other => regs r (by simpa [spReg] using other),
    fun _ => rfl, rfl, ⟨rfl, rfl⟩, rfl⟩

/-- Settles O29: RET reads the cell CALL stored, which holds the return address, or under VIA_R7 the byte below it. -/
theorem callThenRetReturns : Obligations.CallThenRetReturns := by
  intro a s fits wf
  cases link : s.callLink with
  | stack =>
    obtain ⟨-, t, called, sp, cell, -⟩ := callPushesReturnAddress a s link fits wf
    refine ⟨t, called, fun u sameSp sameCell sameLink => ?_⟩
    obtain ⟨-, v, returned, pc, pointer, -⟩ := retPopsIntoPc u sameLink
    refine ⟨v, returned, ?_, fun _ => by rw [pointer, sameSp, sp, BitVec.sub_add_cancel]⟩
    rw [pc, sameSp, sameCell, sp, cell, toNat_ofNat_of_le fits]
  | viaR7 =>
    obtain ⟨t, called, sp, cell, -⟩ := callViaR7OverwritesItsOperand a s link fits wf
    refine ⟨t, called, fun u sameSp sameCell sameLink => ?_⟩
    obtain ⟨v, returned, pointer, pc, -⟩ := retViaR7JumpsToIncrementedByte u sameLink
    have operand : t.readReg 7 = BitVec.ofNat 8 (s.pc + 1) :=
      BitVec.eq_of_toNat_eq (sp.trans (toNat_ofNat_of_le (by omega)).symm)
    refine ⟨v, returned, ?_, nofun⟩
    rw [pc, pointer, sameSp, sameCell, operand, BitVec.toNat_add, cell]
    exact Nat.mod_eq_of_lt (by simp; omega)

end Sys2Proof.Machine

/-! # The other statements: the state when a run starts

First the cells after the loader's store, and the reset values of the registers. Then the statements. -/

namespace Sys2Proof.Machine

/-- The loader's store puts each byte at its address (R173). -/
theorem read_storeBytes {m : Memory} (wf : m.wf = true) {addr k : Nat} {bs : List Byte} (long : k < bs.length)
    (top : addr + k ≤ Config.lastAddress) : (m.storeBytes addr bs).read (addr + k) = bs[k] := by
  induction bs generalizing m addr k with
  | nil => cases long
  | cons b rest ih =>
    rw [Memory.storeBytes, if_pos (by omega)]
    cases k with
    | zero => exact (read_storeBytes_below _ (by omega) rest).trans (read_write_self wf addr b)
    | succ k =>
      rw [List.getElem_cons_succ, ← Nat.add_assoc, Nat.add_right_comm]
      exact ih (write_wf wf (by omega) b) _ (by omega)

theorem readReg_reset_seven : State.reset.readReg 7 = 0xF4#8 := rfl

theorem readReg_reset_other : ∀ r : Reg, r ≠ 7 → State.reset.readReg r = 0x00#8 := by decide

theorem boot_mem_wf (image : List Byte) (link : CallLink) : (State.boot image link).mem.wf = true :=
  storeBytes_wf reset_mem_wf 0 image

/-! ## The statements -/

/-- Settles O58: the loader stores the image from address 0 up. -/
theorem imageIsTheInitialMemory : Obligations.ImageIsTheInitialMemory := by
  intro image link k long top
  have stored := read_storeBytes reset_mem_wf (addr := 0) long (by rwa [Nat.zero_add])
  rw [Nat.zero_add] at stored
  rwa [State.byteAt, State.peek, toNat_ofNat_of_le top]

/-- Settles O39: nothing is listed but what the loader stored, and the latches are empty. -/
theorem invariantHoldsAfterReset : Obligations.InvariantHoldsAfterReset :=
  ⟨⟨reset_mem_wf, Nat.zero_le _, trivial, trivial⟩,
    fun image link => ⟨boot_mem_wf image link, Nat.zero_le _, trivial, trivial⟩⟩

/-- Settles O57: the loader and the parameter leave every field but the memory as at reset. -/
theorem resetValues : Obligations.ResetValues :=
  ⟨rfl, fun _ _ => ⟨readReg_reset_seven, readReg_reset_other, rfl, rfl, rfl, rfl, rfl, rfl⟩⟩

/-- Settles O59: the memory is the one before, and every other field is as at reset. -/
theorem resetLeavesMemoryAlone : Obligations.ResetLeavesMemoryAlone :=
  fun _ => ⟨fun _ => rfl, rfl, rfl, rfl, rfl, rfl, rfl, readReg_reset_seven, readReg_reset_other⟩

end Sys2Proof.Machine
